-- ==== Sys2Proof/Word.lean ====
section
/-! DEFINITION. The two word sizes of the block: an 8-bit element (R8) and a 32-bit command or port word (R39, R82). -/

namespace Sys2Proof

/-- A stored tryte, a stored packed byte or an operand field: 8 bits, unsigned (R8, R42). -/
abbrev Byte := BitVec 8

/-- A command word, or the value of the result or status port: 32 bits (R39, R82). -/
abbrev Word := BitVec 32

end Sys2Proof
end

