-- ==== Sys2Proof/Syntax.lean ====
section
/-! DEFINITION. The eleven commands of the opcode map (R43), one constructor per row of spec/opcode_table.json. -/

namespace Sys2Proof

/-- A decoded command. Operands are the 8-bit fields of the command word, as R42 names them. -/
inductive Instr where
  /-- ENC3, format T: encode one tryte-triple (R52). -/
  | enc3 (t0 t1 t2 : Byte)
  /-- DEC3, format P: decode one packed-pair (R53). -/
  | dec3 (b0 b1 : Byte)
  /-- SEQ_ENC, format N: encode the tryte-sequence (R57). -/
  | seqEnc
  /-- SEQ_DEC, format N: decode the packed-sequence (R58). -/
  | seqDec
  /-- TS_WR, format W: write one tryte (R72). -/
  | tsWr (idx val : Byte)
  /-- TS_RD, format R: read one tryte (R73). -/
  | tsRd (idx : Byte)
  /-- PS_WR, format W: write one packed byte (R74). -/
  | psWr (idx val : Byte)
  /-- PS_RD, format R: read one packed byte (R75). -/
  | psRd (idx : Byte)
  /-- HR_START, format N: begin a human-readable string (R64). -/
  | hrStart
  /-- HR_CHAR, format C: give its next character (R65). -/
  | hrChar (ch : Byte)
  /-- RAND, format N: fill the tryte-sequence from the entropy input (R80). -/
  | rand
deriving DecidableEq, Repr

end Sys2Proof
end

