-- ==== Sys2Proof/Decode.lean ====
section
/-! DEFINITION. Command encoding: the six formats (R40, R41), the operand fields (R42), the opcode map (R43), the decoder,
total on all 2^32 words (R44 to R47), and after it the encoder (R48). -/

namespace Sys2Proof

/-- The six formats of R41. -/
inductive Format where
  | t | p | w | r | c | n
deriving DecidableEq, Repr

/-- Whether every bit a format reserves is 0 (R45): T `[27:24]`; P and W `[27:16]`; R `[27:16]` and `[7:0]`;
C `[27:8]`; N `[27:0]`. -/
def reservedZero (f : Format) (w : Word) : Bool :=
  match f with
  | .t => decide (w.extractLsb' 24 4 = 0#4)
  | .p => decide (w.extractLsb' 16 12 = 0#12)
  | .w => decide (w.extractLsb' 16 12 = 0#12)
  | .r => decide (w.extractLsb' 16 12 = 0#12) && decide (w.extractLsb' 0 8 = 0#8)
  | .c => decide (w.extractLsb' 8 20 = 0#20)
  | .n => decide (w.extractLsb' 0 28 = 0#28)

/-- The format of a legal opcode; none for the illegal ones (R43, R44). -/
def opFormat (op : Nat) : Option Format :=
  match op with
  | 0x1 => some .t
  | 0x2 => some .p
  | 0x3 => some .n
  | 0x4 => some .n
  | 0x5 => some .w
  | 0x6 => some .r
  | 0x7 => some .w
  | 0x8 => some .r
  | 0x9 => some .n
  | 0xA => some .c
  | 0xB => some .n
  | _ => none

/-- One row of the opcode map, match and mask over the whole word (R43). -/
structure OpRow where
  op       : Nat
  format   : Format
  matchVal : Word
  mask     : Word
deriving DecidableEq, Repr

/-- The opcode map, row by row as R43 prints it. The decoder reads slices of the word and not this table, so that the two
can be held against each other. -/
def opcodeMap : List OpRow :=
  [ ⟨0x1, .t, 0x10000000#32, 0xFF000000#32⟩,
    ⟨0x2, .p, 0x20000000#32, 0xFFFF0000#32⟩,
    ⟨0x3, .n, 0x30000000#32, 0xFFFFFFFF#32⟩,
    ⟨0x4, .n, 0x40000000#32, 0xFFFFFFFF#32⟩,
    ⟨0x5, .w, 0x50000000#32, 0xFFFF0000#32⟩,
    ⟨0x6, .r, 0x60000000#32, 0xFFFF00FF#32⟩,
    ⟨0x7, .w, 0x70000000#32, 0xFFFF0000#32⟩,
    ⟨0x8, .r, 0x80000000#32, 0xFFFF00FF#32⟩,
    ⟨0x9, .n, 0x90000000#32, 0xFFFFFFFF#32⟩,
    ⟨0xA, .c, 0xA0000000#32, 0xFFFFFF00#32⟩,
    ⟨0xB, .n, 0xB0000000#32, 0xFFFFFFFF#32⟩ ]

/-- `OP = w[31:28]` (R40). -/
def fieldOp (w : Word) : BitVec 4 := w.extractLsb' 28 4

/-- `A = VAL = CH = w[7:0]` (R42). -/
def fieldA (w : Word) : Byte := w.extractLsb' 0 8

/-- `B = IDX = w[15:8]` (R42). -/
def fieldB (w : Word) : Byte := w.extractLsb' 8 8

/-- `C = w[23:16]` (R42). -/
def fieldC (w : Word) : Byte := w.extractLsb' 16 8

/-- What a word is (R46, R47): exactly one of a command, an illegal opcode, a reserved-field violation. -/
inductive Decoded where
  | command (i : Instr)
  | illegalOpcode
  | reservedField
deriving DecidableEq, Repr

/-- The command a legal opcode selects, with the operand fields of its format (R42, R43). -/
def commandOf (op : Nat) (w : Word) : Option Instr :=
  match op with
  | 0x1 => some (.enc3 (fieldA w) (fieldB w) (fieldC w))
  | 0x2 => some (.dec3 (fieldA w) (fieldB w))
  | 0x3 => some .seqEnc
  | 0x4 => some .seqDec
  | 0x5 => some (.tsWr (fieldB w) (fieldA w))
  | 0x6 => some (.tsRd (fieldB w))
  | 0x7 => some (.psWr (fieldB w) (fieldA w))
  | 0x8 => some (.psRd (fieldB w))
  | 0x9 => some .hrStart
  | 0xA => some (.hrChar (fieldA w))
  | 0xB => some .rand
  | _ => none

/-- The decoder, in the order of R47: the opcode first, then the reserved bits of its format, then the fields. -/
def decode (w : Word) : Decoded :=
  match opFormat (fieldOp w).toNat, commandOf (fieldOp w).toNat w with
  | some f, some i => if reservedZero f w then .command i else .reservedField
  | _, _ => .illegalOpcode

/-- The instruction the decoder reads from a word given as a number, its bits above `nbits` taken as 0. Every row of
the table has 32 bits, and a command has no more (R39), so a longer one is refused. -/
def decodeTableWord (nbits w : Nat) : Option Instr :=
  if nbits ≤ 32 then
    match decode (BitVec.ofNat 32 (w % 2 ^ nbits)) with
    | .command i => some i
    | .illegalOpcode => none
    | .reservedField => none
  else none

/-- The encoder, the forms of R48: opcode, reserved zeros, then the operand fields, the last tuple position highest. -/
def encode : Instr → Word
  | .enc3 t0 t1 t2 => 0x1#4 ++ 0#4 ++ t2 ++ t1 ++ t0
  | .dec3 b0 b1 => 0x2#4 ++ 0#12 ++ b1 ++ b0
  | .seqEnc => 0x30000000#32
  | .seqDec => 0x40000000#32
  | .tsWr idx val => 0x5#4 ++ 0#12 ++ idx ++ val
  | .tsRd idx => 0x6#4 ++ 0#12 ++ idx ++ 0#8
  | .psWr idx val => 0x7#4 ++ 0#12 ++ idx ++ val
  | .psRd idx => 0x8#4 ++ 0#12 ++ idx ++ 0#8
  | .hrStart => 0x90000000#32
  | .hrChar ch => 0xA#4 ++ 0#20 ++ ch
  | .rand => 0xB0000000#32

/-- The opcode number of a command (R43). -/
def opcodeOf : Instr → Nat
  | .enc3 _ _ _ => 0x1
  | .dec3 _ _ => 0x2
  | .seqEnc => 0x3
  | .seqDec => 0x4
  | .tsWr _ _ => 0x5
  | .tsRd _ => 0x6
  | .psWr _ _ => 0x7
  | .psRd _ => 0x8
  | .hrStart => 0x9
  | .hrChar _ => 0xA
  | .rand => 0xB

end Sys2Proof
end

