-- ==== Sys2Proof/Config.lean ====
section
/-! DEFINITION. What one built instance of the block fixes (R5, R7), and the free values: the entropy the
source supplies and the pair an out-of-range encode gives in draw mode. -/

namespace Sys2Proof

/-- OOR_ENCODE_MODE (R7, D12): whether an encode with an input above 26 is its wrap value or any pair. -/
inductive OorMode where
  | wrap
  | draw
deriving DecidableEq, Repr

/-- The parameters of one instance (R7), fixed when the block is built. No step changes them. -/
structure Config where
  /-- `L`, the number of groups of one sequence (R6). -/
  groups  : Nat
  /-- `OOR_ENCODE_MODE`. -/
  oorMode : OorMode
deriving DecidableEq, Repr

/-- `L` of the instance for `N` trits, the four instances of R6 (80 for N = 721 by C1 and D1). -/
def Config.groupsOfTrits (n : Nat) : Option Nat :=
  if n = 27 then some 3
  else if n = 81 then some 9
  else if n = 243 then some 27
  else if n = 721 then some 80
  else none

/-- FREE VALUE. What the entropy source supplies as its `n`-th value when nothing is lined up for it: any value
in `[0, 26]` (R79, U5). No body: nothing can be proved of it beyond its range. That it depends on `n` alone, so that two
instances or two runs with nothing lined up and the same count draw equal values, is the model's choice, where U6 leaves the
relation of two draws open. Log entry 3. -/
opaque Config.freeEntropy : Nat → Fin 27

/-- Which call of `enc` a command makes: the one of ENC3 (R52), or that of SEQ_ENC for group `i` (R57). -/
inductive EncCall where
  | enc3
  | group (i : Nat)
deriving DecidableEq, Repr

/-- FREE VALUE. The pair an out-of-range encode of the instance `c` gives when OOR_ENCODE_MODE is `draw`: any value in
`[0, 255]^2` (R50, U2). It depends on the call and on the call's own three inputs and on nothing else, so that the same
command on the same inputs draws the same pair (R31, R57). That two built instances of equal parameters draw equal pairs is
the model's choice. No body. Log entry 2. -/
opaque Config.freePair (c : Config) (k : EncCall) (t0 t1 t2 : Byte) : Byte × Byte

end Sys2Proof
end

