-- ==== Sys2Proof/Machine/Instance.lean ====
section
/-! DEFINITION. The one instance `State.reset` is built for. Every other definition and statement takes the instance from
the state, so they hold for every `L` of R7. -/

namespace Sys2Proof.Machine

/-- DESIGN CHOICE (log entry 1): the N = 27 instance, `L = 3`, the first row of R6. OOR_ENCODE_MODE is `wrap`, the value
R7 gives for this hardware. -/
def builtInstance : Config := { groups := 3, oorMode := .wrap }

end Sys2Proof.Machine
end

