-- ==== Sys2Proof/Machine/State.lean ====
section
/-! DEFINITION. The state: the registers of R10, the instance's parameters, and the agents outside the block (the host's
pending actions, what it has read, the entropy lined up) as plain data. -/

namespace Sys2Proof.Machine

/-- What the host may do on the block's ports (R82), one at a time. -/
inductive HostAction where
  /-- Present a 32-bit word on the command port. -/
  | command (w : Word)
  /-- Read `RES` on the result port (R16). -/
  | readResult
  /-- Read `STATUS` on the status port (R20). -/
  | readStatus
  /-- Assert the reset input between commands (R97). -/
  | reset
deriving DecidableEq, Repr

/-- A value the host has read, and the port it read it on (R103). -/
inductive Reading where
  | result (v : Word)
  | status (v : Word)
deriving DecidableEq, Repr

/-- The three errors of R83. -/
inductive ErrorCode where
  | illegalOpcode
  | reservedField
  | indexRange
deriving DecidableEq, Repr

/-- The machine's state. The first group of fields is R10's list; the rest are the instance, the reset record and the
agents outside the block. -/
structure State where
  /-- The instance's parameters (R7); no step changes them. -/
  cfg : Config
  /-- `TS`, `3L` elements in index order (R11). -/
  ts : List Byte
  /-- `PS`, `2L` elements in index order (R14). -/
  ps : List Byte
  /-- `RES` (R16). -/
  res : Word
  /-- `STATUS.ERR` (R21). -/
  err : Bool
  /-- `STATUS.ECODE` (R20). -/
  ecode : BitVec 3
  /-- `HRC` (R22). -/
  hrc : Byte
  /-- Whether a reset has happened; before the first the registers hold no value (R98). -/
  wasReset : Bool
  /-- Values the entropy source has lined up and no RAND has taken (R79). -/
  entropy : List (Fin 27)
  /-- The MODEL's own field: how many values the RANDs so far have taken from the entropy input (log entry 4). -/
  draws : Nat
  /-- What the host will do next, in order (R82, R103). -/
  script : List HostAction
  /-- What the host has read on the ports, oldest first (R103). -/
  reads : List Reading
  /-- The host's position in its sequence of commands (R17). -/
  pos : Nat
deriving DecidableEq, Repr

/-- Why the machine stops. -/
inductive Fault where
  /-- Raised by the step (never by an instruction) when the host presents a command or reads a port before the first
  reset: the state has no value (R98, U11). Safe: the spec puts such a run outside itself. -/
  | beforeFirstReset
deriving DecidableEq, Repr

/-- Why the model declines. -/
inductive Refusal where
  /-- Raised by exec's arm of an instruction with no meaning yet; no arm does so now. Safe: it proves nothing. -/
  | notModelled (mnemonic : String)
deriving DecidableEq, Repr

/-- The instance `c` right after reset (R23, R97), with nothing presented, read or lined up yet. -/
def State.resetOf (c : Config) : State :=
  { cfg := c
    ts := List.replicate (3 * c.groups) 0#8
    ps := List.replicate (2 * c.groups) 0#8
    res := 0#32
    err := false
    ecode := 0#3
    hrc := 0#8
    wasReset := true
    entropy := []
    draws := 0
    script := []
    reads := []
    pos := 0 }

/-- The machine right after reset. -/
def State.reset : State := State.resetOf builtInstance

end Sys2Proof.Machine
end

