-- ==== Sys2Proof/Machine/Ops.lean ====
section
/-! DEFINITION. The named operations over the registers: element access to the two arrays, the result register, the
cursor, taking an error, reset, and taking entropy. -/

namespace Sys2Proof.Machine

/-- The size of `TS`, `3L` (R6). -/
def tsSize (s : State) : Nat := 3 * s.cfg.groups

/-- The size of `PS`, `2L` (R6). -/
def psSize (s : State) : Nat := 2 * s.cfg.groups

/-- `TS[k]` (R9). An index outside the list reads 0; no command reads one in a legal state (log entry 9). -/
def readTs (k : Nat) (s : State) : Byte := s.ts.getD k 0#8

/-- `PS[j]` (R9). An index outside the list reads 0; no command reads one in a legal state (log entry 9). -/
def readPs (j : Nat) (s : State) : Byte := s.ps.getD j 0#8

/-- `TS[k] <- v` (R9). -/
def writeTs (k : Nat) (v : Byte) (s : State) : State := { s with ts := s.ts.set k v }

/-- `PS[j] <- v` (R9). -/
def writePs (j : Nat) (v : Byte) (s : State) : State := { s with ps := s.ps.set j v }

/-- Writes every element of `TS` (R30). -/
def fillTs (l : List Byte) (s : State) : State := { s with ts := l }

/-- Writes every element of `PS` (R30). -/
def fillPs (l : List Byte) (s : State) : State := { s with ps := l }

/-- `RES <- v`, all 32 bits (R16). -/
def writeRes (v : Word) (s : State) : State := { s with res := v }

/-- `HRC <- v` (R22). -/
def writeHrc (v : Byte) (s : State) : State := { s with hrc := v }

/-- The number of an error (R83). -/
def errorNumber : ErrorCode → BitVec 3
  | .illegalOpcode => 1#3
  | .reservedField => 2#3
  | .indexRange => 3#3

/-- `raise Error(c)` (R84): the first error since reset records its code, `ERR` becomes 1, nothing else changes and the
block carries on with the next command (R86). There is no return from it: only reset clears the record (R86). -/
def raiseError (c : ErrorCode) (s : State) : State :=
  { s with
    err := true
    ecode := if s.err then s.ecode else errorNumber c }

/-- The reset input (R97): every register to the value of R23. `L` does not change, and what is outside the block (the
host's list, its readings and position, the entropy source) is not reset (log entry 10). -/
def applyReset (s : State) : State :=
  { s with
    ts := List.replicate (tsSize s) 0#8
    ps := List.replicate (psSize s) 0#8
    res := 0#32
    err := false
    ecode := 0#3
    hrc := 0#8
    wasReset := true }

/-- The `k`-th value the entropy input supplies to the next RAND (R79): what is lined up, then free values,
which depend on the count of values taken alone (the model's choice, log entry 3). -/
def entropyAt (k : Nat) (s : State) : Fin 27 :=
  match s.entropy[k]? with
  | some e => e
  | none => Config.freeEntropy (s.draws + k)

/-- The 8-bit value of one draw (R79). -/
def drawByte (e : Fin 27) : Byte := BitVec.ofNat 8 e.val

/-- Takes `n` values from the entropy input, so that the next RAND receives new ones (R31). -/
def takeEntropy (n : Nat) (s : State) : State :=
  { s with entropy := s.entropy.drop n, draws := s.draws + n }

/-- The host moves past its next action, `rest` being what it does after. -/
def dropAction (rest : List HostAction) (s : State) : State := { s with script := rest }

/-- The host's position advances by exactly 1, a command being presented (R17). -/
def countCommand (s : State) : State := { s with pos := s.pos + 1 }

/-- The host records a value it read on a port (R103). -/
def recordReading (r : Reading) (s : State) : State := { s with reads := s.reads ++ [r] }

end Sys2Proof.Machine
end

