-- ==== Sys2Proof/Machine/Operands.lean ====
section
/-! DEFINITION. The operand forms: the direct index with its check (R71), and the layouts of `RES` per writer
(R28, R52, R53, R73, R75). -/

namespace Sys2Proof.Machine

/-- `wrap8(v) = v mod 256` (R9). -/
def wrap8 (v : Nat) : Byte := BitVec.ofNat 8 v

/-- An element in `RES[7:0]`, the rest 0 (R73, R75). -/
def elementWord (v : Byte) : Word := v.setWidth 32

/-- A packed-pair in `RES`: `zext_32(b1 ‖ b0)` (R52). -/
def pairWord (b : Byte × Byte) : Word := (b.2 ++ b.1).setWidth 32

/-- A tryte-triple in `RES`: `zext_32(t2 ‖ t1 ‖ t0)` (R53). -/
def tripleWord (t : Byte × Byte × Byte) : Word := (t.2.2 ++ t.2.1 ++ t.1).setWidth 32

/-- The index check of TS_WR and TS_RD (R71): `t` if `IDX < 3L`, else `Error(3)` and no other effect. -/
def ifTsIndex (idx : Byte) (t s : State) : State :=
  if idx.toNat < tsSize s then t else raiseError .indexRange s

/-- The index check of PS_WR and PS_RD (R71): `t` if `IDX < 2L`, else `Error(3)` and no other effect. -/
def ifPsIndex (idx : Byte) (t s : State) : State :=
  if idx.toNat < psSize s then t else raiseError .indexRange s

end Sys2Proof.Machine
end

