-- ==== Sys2Proof/Machine/Element.lean ====
section
/-! DEFINITION. Raw array and packed interchange: TS_WR, TS_RD, PS_WR, PS_RD (R72 to R75). -/

namespace Sys2Proof.Machine

/-- TS_WR (R72). -/
def execTsWr (idx val : Byte) (s : State) : Host.Outcome State Fault Refusal :=
  .next (ifTsIndex idx (writeTs idx.toNat val s) s)

/-- TS_RD (R73). -/
def execTsRd (idx : Byte) (s : State) : Host.Outcome State Fault Refusal :=
  .next (ifTsIndex idx (writeRes (elementWord (readTs idx.toNat s)) s) s)

/-- PS_WR (R74). -/
def execPsWr (idx val : Byte) (s : State) : Host.Outcome State Fault Refusal :=
  .next (ifPsIndex idx (writePs idx.toNat val s) s)

/-- PS_RD (R75). -/
def execPsRd (idx : Byte) (s : State) : Host.Outcome State Fault Refusal :=
  .next (ifPsIndex idx (writeRes (elementWord (readPs idx.toNat s)) s) s)

end Sys2Proof.Machine
end

