-- ==== Sys2Proof/Machine/HumanReadable.lean ====
section
/-! DEFINITION. Human-readable ingress: the character map (R63), HR_START (R64) and HR_CHAR (R65). -/

namespace Sys2Proof.Machine

/-- `hr(c)` (R63): 0 for `'9'` (0x39), else `c - 0x41 + 1` with 8-bit wrap-around. -/
def hr (c : Byte) : Byte := if c = 0x39#8 then 0#8 else c - 0x41#8 + 1#8

/-- HR_START (R64). -/
def execHrStart (s : State) : Host.Outcome State Fault Refusal :=
  .next (writeHrc 0#8 (fillTs (List.replicate (tsSize s) 0#8) s))

/-- HR_CHAR (R65): at `HRC = 3L` the character is ignored. -/
def execHrChar (ch : Byte) (s : State) : Host.Outcome State Fault Refusal :=
  .next (if s.hrc.toNat < tsSize s then writeHrc (s.hrc + 1#8) (writeTs s.hrc.toNat (hr ch) s) else s)

end Sys2Proof.Machine
end

