-- ==== Sys2Proof/Machine/Packer.lean ====
section
/-! DEFINITION. The elementary packer: the functions `enc` and `dec` (R50, R51) and the commands ENC3 and DEC3 (R52, R53). -/

namespace Sys2Proof.Machine

/-- A tryte in `[0, 26]` (R3, glossary of 00_scope.md). -/
def inRange (t : Byte) : Bool := decide (t.toNat ≤ 26)

/-- `enc` in wrap mode (R50): each exact sum reduced modulo 256. -/
def encWrap (t0 t1 t2 : Byte) : Byte × Byte :=
  (wrap8 (t0.toNat + 27 * (t2.toNat % 3)), wrap8 (t1.toNat + 27 * (t2.toNat / 3)))

/-- `enc` of an instance (R50). In draw mode an input above 26 gives the free pair of the call `k` on these inputs;
otherwise the modes agree. -/
def enc (c : Config) (k : EncCall) (t0 t1 t2 : Byte) : Byte × Byte :=
  if c.oorMode = .draw ∧ ¬ (inRange t0 && inRange t1 && inRange t2) = true then c.freePair k t0 t1 t2
  else encWrap t0 t1 t2

/-- `dec` (R51): exact for every pair of bytes. -/
def dec (b0 b1 : Byte) : Byte × Byte × Byte :=
  (wrap8 (b0.toNat % 27), wrap8 (b1.toNat % 27), wrap8 (b0.toNat / 27 + 3 * (b1.toNat / 27)))

/-- ENC3 (R52). -/
def execEnc3 (t0 t1 t2 : Byte) (s : State) : Host.Outcome State Fault Refusal :=
  .next (writeRes (pairWord (enc s.cfg .enc3 t0 t1 t2)) s)

/-- DEC3 (R53). -/
def execDec3 (b0 b1 : Byte) (s : State) : Host.Outcome State Fault Refusal :=
  .next (writeRes (tripleWord (dec b0 b1)) s)

end Sys2Proof.Machine
end

