-- ==== Sys2Proof/Machine/Random.lean ====
section
/-! DEFINITION. RAND (R80). -/

namespace Sys2Proof.Machine

/-- The `3L` values the entropy input supplies to a RAND, in index order (R79, R80). -/
def entropyFill (s : State) : List Byte :=
  (List.range (tsSize s)).map fun k => drawByte (entropyAt k s)

/-- RAND (R80). -/
def execRand (s : State) : Host.Outcome State Fault Refusal :=
  .next (takeEntropy (tsSize s) (fillTs (entropyFill s) s))

end Sys2Proof.Machine
end

