-- ==== Sys2Proof/Machine/Sequence.lean ====
section
/-! DEFINITION. Whole-sequence encode and decode: SEQ_ENC (R57) and SEQ_DEC (R58). -/

namespace Sys2Proof.Machine

/-- What `enc` gives for group `i` of `TS` (R12, R57). -/
def encGroup (s : State) (i : Nat) : Byte × Byte :=
  enc s.cfg (.group i) (readTs (3 * i) s) (readTs (3 * i + 1) s) (readTs (3 * i + 2) s)

/-- What `dec` gives for group `i` of `PS` (R14, R58). -/
def decGroup (s : State) (i : Nat) : Byte × Byte × Byte :=
  dec (readPs (2 * i) s) (readPs (2 * i + 1) s)

/-- `L` pairs flattened in group order (R14). -/
def flattenPairs (f : Nat → Byte × Byte) (groups : Nat) : List Byte :=
  (List.range groups).flatMap fun i => [(f i).1, (f i).2]

/-- `L` triples flattened in group order (R12). -/
def flattenTriples (f : Nat → Byte × Byte × Byte) (groups : Nat) : List Byte :=
  (List.range groups).flatMap fun i => [(f i).1, (f i).2.1, (f i).2.2]

/-- SEQ_ENC (R57). -/
def execSeqEnc (s : State) : Host.Outcome State Fault Refusal :=
  .next (fillPs (flattenPairs (encGroup s) s.cfg.groups) s)

/-- SEQ_DEC (R58). -/
def execSeqDec (s : State) : Host.Outcome State Fault Refusal :=
  .next (fillTs (flattenTriples (decGroup s) s.cfg.groups) s)

end Sys2Proof.Machine
end

