-- ==== Sys2Proof/Machine/Dispatch.lean ====
section
/-! DEFINITION. One arm per command: each calls its meaning. -/

namespace Sys2Proof.Machine

def exec (i : Instr) (s : State) : Host.Outcome State Fault Refusal :=
  match i with
  | .enc3 t0 t1 t2 => Sys2Proof.Machine.execEnc3 t0 t1 t2 s
  | .dec3 b0 b1 => Sys2Proof.Machine.execDec3 b0 b1 s
  | .seqEnc => Sys2Proof.Machine.execSeqEnc s
  | .seqDec => Sys2Proof.Machine.execSeqDec s
  | .tsWr idx val => Sys2Proof.Machine.execTsWr idx val s
  | .tsRd idx => Sys2Proof.Machine.execTsRd idx s
  | .psWr idx val => Sys2Proof.Machine.execPsWr idx val s
  | .psRd idx => Sys2Proof.Machine.execPsRd idx s
  | .hrStart => Sys2Proof.Machine.execHrStart s
  | .hrChar ch => Sys2Proof.Machine.execHrChar ch s
  | .rand => Sys2Proof.Machine.execRand s

end Sys2Proof.Machine
end

