-- ==== Sys2Proof/Machine/Flags.lean ====
section
/-! DEFINITION. The STATUS register as the host reads it (R20). `ERR` and `ECODE` are its only flags (R21); they change
by `raiseError` and `applyReset` alone. -/

namespace Sys2Proof.Machine

/-- `STATUS.LCFG`: `L`, a constant of the instance (R20). -/
def lcfg (s : State) : Byte := BitVec.ofNat 8 s.cfg.groups

/-- `STATUS` (R20): reserved, LCFG, HRC, reserved, ECODE, ERR, from bit 31 down. -/
def statusWord (s : State) : Word :=
  0#8 ++ lcfg s ++ s.hrc ++ 0#4 ++ s.ecode ++ BitVec.ofBool s.err

end Sys2Proof.Machine
end

