-- ==== Sys2Proof/Machine/Port.lean ====
section
/-! DEFINITION. The host interface (R82): a word on the command port, a read of a port, the reset input, and one action of
the host's list. -/

namespace Sys2Proof.Machine

/-- A word on the command port: decoded in the order of R47; a word that spells no command raises its error (R44, R45),
a command executes (R71 checks its index there). -/
def runWord (w : Word) (s : State) : Host.Outcome State Fault Refusal :=
  match decode w with
  | .command i => exec i s
  | .illegalOpcode => .next (raiseError .illegalOpcode s)
  | .reservedField => .next (raiseError .reservedField s)

/-- An action other than reset needs a state that has a value (R98, U11). -/
def afterReset (o : Host.Outcome State Fault Refusal) (s : State) : Host.Outcome State Fault Refusal :=
  if s.wasReset then o else .fault .beforeFirstReset

/-- One action of the host, already taken off its list. -/
def hostAct (a : HostAction) (s : State) : Host.Outcome State Fault Refusal :=
  match a with
  | .command w => afterReset (runWord w (countCommand s)) s
  | .readResult => afterReset (.next (recordReading (.result s.res) s)) s
  | .readStatus => afterReset (.next (recordReading (.status (statusWord s)) s)) s
  | .reset => .next (applyReset s)

/-- The host's next action takes effect (R34, R100); with none pending the block holds its state (R96). -/
def hostStep (s : State) : Host.Outcome State Fault Refusal :=
  match s.script with
  | [] => .next s
  | a :: rest => hostAct a (dropAction rest s)

/-- The state in which the host's next action presents the word `w`, after a reset (log entry 5). -/
def presentWord (w : Word) (s : State) : State :=
  { s with script := .command w :: s.script, wasReset := true }

end Sys2Proof.Machine
end

