-- ==== Sys2Proof/WellFormed.lean ====
section
/-! DEFINITION. What is checked before the machine runs: the range of the instance's parameters (R7), and the
assembler's checks on a source line (R48). A term of `Instr` carries 8-bit operands by its type, so every one of them
is well formed: R42 gives an operand field no other condition, and an index out of range is an error of EXECUTION (R71). -/

namespace Sys2Proof

/-- R7: `1 <= L <= 85`, so that every element index fits the 8-bit IDX field. -/
def Config.wellFormed (c : Config) : Bool :=
  decide (1 ≤ c.groups) && decide (c.groups ≤ 85)

/-- What a source line may begin with (R48): a command's mnemonic or the directive `.word`. -/
inductive Mnemonic where
  | enc3 | dec3 | seqEnc | seqDec | tsWr | tsRd | psWr | psRd | hrStart | hrChar | rand | word
deriving DecidableEq, Repr

/-- An operand as written (R48): a number, or a character in single quotes, which stands for its code. -/
inductive Operand where
  | number (n : Nat)
  | quoted (code : Nat)
deriving DecidableEq, Repr

/-- The number an operand stands for (R48). -/
def Operand.value : Operand → Nat
  | .number n => n
  | .quoted c => c

/-- One line of assembler source, read but not yet checked (R48). -/
structure SourceLine where
  mnemonic : Mnemonic
  operands : List Operand
deriving DecidableEq, Repr

/-- How many operands a form of R48 has. -/
def Mnemonic.arity : Mnemonic → Nat
  | .enc3 => 3
  | .dec3 | .tsWr | .psWr => 2
  | .tsRd | .psRd | .hrChar | .word => 1
  | .seqEnc | .seqDec | .hrStart | .rand => 0

/-- R48: an operand is 0 to 255 (a value of `.word` is a 32-bit word as it stands), and only HR_CHAR takes a quoted
character. -/
def Mnemonic.accepts (m : Mnemonic) : Operand → Bool
  | .number n => decide (n < if m = .word then 2 ^ 32 else 256)
  | .quoted c => decide (m = .hrChar) && decide (c < 256)

/-- R48: the line has its form's number of operands and each is one the form takes; anything else is an assembly
error, not a command. -/
def SourceLine.wellFormed (l : SourceLine) : Bool :=
  decide (l.operands.length = l.mnemonic.arity) && l.operands.all l.mnemonic.accepts

end Sys2Proof
end

