-- ==== Sys2Proof/Machine/Assembler.lean ====
section
/-! DEFINITION. The assembler of R48: a line of text to a source line, a checked source line to its 32-bit word. Text is a
list of characters. What R48 leaves open of the spelling is log entry 11. -/

namespace Sys2Proof.Machine

/-- The white space between tokens (log entry 11). -/
def isBlankChar (c : Char) : Bool := decide (c = ' ') || decide (c = '\t') || decide (c = '\r')

/-- `l` without white space at either end. -/
def trimBlanks (l : List Char) : List Char :=
  ((l.dropWhile isBlankChar).reverse.dropWhile isBlankChar).reverse

/-- The line up to the first `;` outside single quotes (R48, log entry 11). -/
def stripComment : List Char → List Char
  | '\'' :: c :: '\'' :: rest => '\'' :: c :: '\'' :: stripComment rest
  | ';' :: _ => []
  | c :: rest => c :: stripComment rest
  | [] => []

/-- `c` at the front of the first piece. -/
def consFirst (c : Char) : List (List Char) → List (List Char)
  | [] => [[c]]
  | p :: ps => (c :: p) :: ps

/-- The pieces between commas outside single quotes (R48). -/
def splitCommas : List Char → List (List Char)
  | '\'' :: c :: '\'' :: rest => consFirst '\'' (consFirst c (consFirst '\'' (splitCommas rest)))
  | ',' :: rest => [] :: splitCommas rest
  | c :: rest => consFirst c (splitCommas rest)
  | [] => [[]]

/-- The value of a decimal digit. -/
def decimalDigit (c : Char) : Option Nat :=
  if 48 ≤ c.toNat ∧ c.toNat ≤ 57 then some (c.toNat - 48) else none

/-- The value of a hexadecimal digit, in either letter case (log entry 11). -/
def hexDigit (c : Char) : Option Nat :=
  if 48 ≤ c.toNat ∧ c.toNat ≤ 57 then some (c.toNat - 48)
  else if 65 ≤ c.toNat ∧ c.toNat ≤ 70 then some (c.toNat - 55)
  else if 97 ≤ c.toNat ∧ c.toNat ≤ 102 then some (c.toNat - 87)
  else none

/-- The digits read after the value `acc`, most significant first. -/
def digitsValue (base : Nat) (digit : Char → Option Nat) (acc : Nat) : List Char → Option Nat
  | [] => some acc
  | c :: rest =>
    match digit c with
    | some d => digitsValue base digit (base * acc + d) rest
    | none => none

/-- What stands after an opening quote: one character and the closing quote (R48). The code the character stands for is its
Unicode scalar value, which for ASCII is the spec's code; for another character it is the model's choice (log entry 11). -/
def quotedOf : List Char → Option Operand
  | [c, q] => if q = '\'' then some (.quoted c.toNat) else none
  | _ => none

/-- What stands after `0x`: hexadecimal digits, at least one (R48). -/
def hexNumberOf : List Char → Option Operand
  | [] => none
  | d :: rest => (digitsValue 16 hexDigit 0 (d :: rest)).map .number

/-- An operand: a quoted character, `0x` and hexadecimal digits, or decimal digits (R48). -/
def operandOf : List Char → Option Operand
  | [] => none
  | c :: rest =>
    if c = '\'' then quotedOf rest
    else if c = '0' ∧ rest.head? = some 'x' then hexNumberOf rest.tail
    else (digitsValue 10 decimalDigit 0 (c :: rest)).map .number

/-- The mnemonics as R48 spells them. -/
def mnemonicOf (l : List Char) : Option Mnemonic :=
  if l = ['E', 'N', 'C', '3'] then some .enc3
  else if l = ['D', 'E', 'C', '3'] then some .dec3
  else if l = ['S', 'E', 'Q', '_', 'E', 'N', 'C'] then some .seqEnc
  else if l = ['S', 'E', 'Q', '_', 'D', 'E', 'C'] then some .seqDec
  else if l = ['T', 'S', '_', 'W', 'R'] then some .tsWr
  else if l = ['T', 'S', '_', 'R', 'D'] then some .tsRd
  else if l = ['P', 'S', '_', 'W', 'R'] then some .psWr
  else if l = ['P', 'S', '_', 'R', 'D'] then some .psRd
  else if l = ['H', 'R', '_', 'S', 'T', 'A', 'R', 'T'] then some .hrStart
  else if l = ['H', 'R', '_', 'C', 'H', 'A', 'R'] then some .hrChar
  else if l = ['R', 'A', 'N', 'D'] then some .rand
  else if l = ['.', 'w', 'o', 'r', 'd'] then some .word
  else none

/-- Every piece read as an operand, or none if one cannot be. -/
def operandsOf : List (List Char) → Option (List Operand)
  | [] => some []
  | p :: ps =>
    match operandOf (trimBlanks p), operandsOf ps with
    | some o, some os => some (o :: os)
    | _, _ => none

/-- What a line of text is (R48). -/
inductive ParsedLine where
  | empty
  | line (l : SourceLine)
  | error
deriving DecidableEq, Repr

/-- Reads one line of text (R48): the mnemonic, then the operands separated by commas. -/
def parseLine (text : List Char) : ParsedLine :=
  let body := trimBlanks (stripComment text)
  let name := body.takeWhile (fun c => !isBlankChar c)
  let tail := trimBlanks (body.dropWhile (fun c => !isBlankChar c))
  if body = [] then .empty
  else
    match mnemonicOf name, operandsOf (if tail = [] then [] else splitCommas tail) with
    | some m, some os => .line ⟨m, os⟩
    | _, _ => .error

/-- The value of operand `k` of a line (0 if the line has no such operand, which a well-formed line's form does not ask
for). -/
def operandValue (l : SourceLine) (k : Nat) : Nat := (l.operands.map Operand.value).getD k 0

/-- Operand `k` as the byte of a field. -/
def operandByte (l : SourceLine) (k : Nat) : Byte := BitVec.ofNat 8 (operandValue l k)

/-- The word each form of R48 encodes as. -/
def lineWord (l : SourceLine) : Word :=
  match l.mnemonic with
  | .enc3 => encode (.enc3 (operandByte l 0) (operandByte l 1) (operandByte l 2))
  | .dec3 => encode (.dec3 (operandByte l 0) (operandByte l 1))
  | .seqEnc => encode .seqEnc
  | .seqDec => encode .seqDec
  | .tsWr => encode (.tsWr (operandByte l 0) (operandByte l 1))
  | .tsRd => encode (.tsRd (operandByte l 0))
  | .psWr => encode (.psWr (operandByte l 0) (operandByte l 1))
  | .psRd => encode (.psRd (operandByte l 0))
  | .hrStart => encode .hrStart
  | .hrChar => encode (.hrChar (operandByte l 0))
  | .rand => encode .rand
  | .word => BitVec.ofNat 32 (operandValue l 0)

/-- The word of a well-formed source line (R48); an ill-formed line is an assembly error. -/
def assembleLine (l : SourceLine) : Option Word :=
  if l.wellFormed then some (lineWord l) else none

/-- The words of a list of lines, in order; none if a line is an assembly error (R48). -/
def assembleLines : List (List Char) → Option (List Word)
  | [] => some []
  | t :: ts =>
    match parseLine t, assembleLines ts with
    | .empty, some ws => some ws
    | .line l, some ws => (assembleLine l).map fun w => w :: ws
    | _, _ => none

end Sys2Proof.Machine
end

