-- ==== Sys2Proof/Machine/Pseudo.lean ====
section
/-! DEFINITION. The pseudo-operations of R49: each a fixed sequence of host actions, for an instance with `L` groups. -/

namespace Sys2Proof.Machine

/-- The whole-sequence operations of R49. -/
inductive PseudoOp where
  | fromTryteArray (raw : List Byte)
  | asTryteArray
  | fromHumanReadable (text : List Byte)
  | loadPacked (bytes : List Byte)
  | readPacked
  | encodeSequence
  | decodeSequence
  | random
deriving DecidableEq, Repr

/-- Presenting the word of a command. -/
def present (i : Instr) : HostAction := .command (encode i)

/-- One indexed write per element, from index `k` on (R49). -/
def writeElements (write : Byte → Byte → Instr) (k : Nat) : List Byte → List HostAction
  | [] => []
  | v :: vs => present (write (BitVec.ofNat 8 k) v) :: writeElements write (k + 1) vs

/-- One indexed read and one read of the result port per element, for `n` elements from index `k` on (R49). -/
def readElements (read : Byte → Instr) (k : Nat) : Nat → List HostAction
  | 0 => []
  | n + 1 => present (read (BitVec.ofNat 8 k)) :: .readResult :: readElements read (k + 1) n

/-- The expansion of a pseudo-operation (R49); none where its array has not the length R49 gives. -/
def expandPseudo (groups : Nat) : PseudoOp → Option (List HostAction)
  | .fromTryteArray raw =>
    if raw.length = 3 * groups then some (writeElements Instr.tsWr 0 raw) else none
  | .asTryteArray => some (readElements Instr.tsRd 0 (3 * groups))
  | .fromHumanReadable text => some (present .hrStart :: text.map fun c => present (.hrChar c))
  | .loadPacked bytes =>
    if bytes.length = 2 * groups then some (writeElements Instr.psWr 0 bytes) else none
  | .readPacked => some (readElements Instr.psRd 0 (2 * groups))
  | .encodeSequence => some [present .seqEnc]
  | .decodeSequence => some [present .seqDec]
  | .random => some [present .rand]

end Sys2Proof.Machine
end

