-- ==== Sys2Proof/Safety.lean ====
section
/-! DEFINITION. The terms claims use: a legal state, the invariant every step keeps, a faulted run, and several steps. -/

namespace Sys2Proof.Machine

/-- The error record as R20 allows it: `ECODE` is 0 to 3, and 0 exactly while `ERR` is 0. -/
abbrev ErrorRecordLegal (s : State) : Prop :=
  s.ecode.toNat ≤ 3 ∧ (s.err = true ↔ s.ecode ≠ 0#3)

/-- A state as R10 describes it: the instance's parameters in range (R7), both arrays of their length (R60), the cursor
at most `3L` (R22), the error record legal (R20). -/
abbrev Legal (s : State) : Prop :=
  s.cfg.wellFormed = true ∧ s.ts.length = tsSize s ∧ s.ps.length = psSize s ∧
    s.hrc.toNat ≤ tsSize s ∧ ErrorRecordLegal s

/-- The invariant: the instance's parameters are in range, and from the first reset on the state is legal (R98: before it
the registers hold no value, so nothing is asked of them). -/
abbrev Inv (s : State) : Prop :=
  s.cfg.wellFormed = true ∧ (s.wasReset = true → Legal s)

/-- A run that has come to `s` is faulted (R86, R103): some command raised an error since reset. -/
abbrev RunFaulted (s : State) : Prop := s.err = true

/-- Every tryte of `TS` is in `[0, 26]` (R11). -/
abbrev TsInRange (s : State) : Prop := ∀ v ∈ s.ts, v.toNat ≤ 26

/-- Every pair of `PS` is nominal: `b0 <= 80` and `b1 <= 242` (glossary of 00_scope.md). -/
abbrev PsNominal (s : State) : Prop :=
  ∀ i < s.cfg.groups, (readPs (2 * i) s).toNat ≤ 80 ∧ (readPs (2 * i + 1) s).toNat ≤ 242

/-- The outcome `o` is that of `raise Error(n)` in `s` (R84): `ERR` is 1, `ECODE` is `n` if this is the first error and
keeps its value otherwise, and nothing else changed. -/
def RaisesError (n : Nat) (o : Host.Outcome State Fault Refusal) (s : State) : Prop :=
  ∃ t, o = .next t ∧ t = { s with err := true, ecode := t.ecode } ∧
    t.ecode.toNat = if s.err then s.ecode.toNat else n

/-- `n` steps, stopping at the first stop. -/
def stepMany : Nat → State → Host.Outcome State Fault Refusal
  | 0, s => .next s
  | n + 1, s =>
    match step s with
    | .next t => stepMany n t
    | .fault r => .fault r
    | .refused r => .refused r

end Sys2Proof.Machine
end

