-- ==== Sys2Proof/Certificates/Slice0/Obligations.lean ====
section
/-! DEFINITION. The statements about the model, one per rule or group of rules of spec/. Results are said as numbers, frames
as an equation of states: `t = { s with f := t.f }` says that every field but `f` is as before. -/

open Sys2Proof Sys2Proof.Machine

/-! ## Encoding -/

/-- For every command and every value of its operands, decoding the encoded word gives the command back (R41, R42, R48). -/
def Obligations.DecodeOfEncode : Prop :=
  ∀ i : Instr, decode (encode i) = .command i

/-- No word has two spellings (D7): a word that decodes to a command is that command's encoding. -/
def Obligations.EncodeOfDecode : Prop :=
  ∀ (w : Word) (i : Instr), decode w = .command i → encode i = w

/-- R43: a word selects the command of a row of the opcode map exactly when its masked bits are the row's match. -/
def Obligations.MatchAndMaskSelectTheCommand : Prop :=
  ∀ row ∈ opcodeMap, ∀ w : Word,
    w &&& row.mask = row.matchVal ↔ ∃ i, decode w = .command i ∧ opcodeOf i = row.op

/-- R44: an opcode 0x0 or 0xC to 0xF raises Error(1) and has no other effect, whatever the other bits are. -/
def Obligations.IllegalOpcodeRaisesErrorOne : Prop :=
  ∀ (w : Word) (s : State), w.toNat / 2 ^ 28 ∈ [0x0, 0xC, 0xD, 0xE, 0xF] → RaisesError 1 (runWord w s) s

/-- R45: with a legal opcode, a 1 in a bit the format reserves raises Error(2) and has no other effect; equivalently the
word is accepted exactly when its masked bits are the row's match. The reserved bits are written out per format. -/
def Obligations.ReservedBitsRaiseErrorTwo : Prop :=
  ∀ row ∈ opcodeMap, ∀ (w : Word) (s : State), w.toNat / 2 ^ 28 = row.op →
    let reserved : Bool :=
      match row.format with
      | .t => decide (w.toNat / 2 ^ 24 % 2 ^ 4 ≠ 0)
      | .p | .w => decide (w.toNat / 2 ^ 16 % 2 ^ 12 ≠ 0)
      | .r => decide (w.toNat / 2 ^ 16 % 2 ^ 12 ≠ 0) || decide (w.toNat % 2 ^ 8 ≠ 0)
      | .c => decide (w.toNat / 2 ^ 8 % 2 ^ 20 ≠ 0)
      | .n => decide (w.toNat % 2 ^ 28 ≠ 0)
    (reserved = true → RaisesError 2 (runWord w s) s) ∧
      (reserved = false ↔ w &&& row.mask = row.matchVal) ∧
      ((∃ i, decode w = .command i) ↔ w &&& row.mask = row.matchVal)

/-- A few words of 95_test_vectors.md decode as printed there, one for every family. -/
def Obligations.SampleWordsDecode : Prop :=
  decode 0x10030201#32 = .command (.enc3 1#8 2#8 3#8) ∧
  decode 0x20001D01#32 = .command (.dec3 1#8 29#8) ∧
  decode 0x30000000#32 = .command .seqEnc ∧
  decode 0x5000081A#32 = .command (.tsWr 8#8 26#8) ∧
  decode 0x80000300#32 = .command (.psRd 3#8) ∧
  decode 0xA0000041#32 = .command (.hrChar 0x41#8) ∧
  decode 0xB0000000#32 = .command .rand ∧
  decode 0xC0000001#32 = .illegalOpcode ∧
  decode 0x60000901#32 = .reservedField

/-- R48: the word of each form of the assembler, for every operand value 0 to 255 (and a quoted character for HR_CHAR);
`.word` gives its value as it stands; a line with a wrong number of operands or an operand the form does not take is an
assembly error, and no other line is. The lines here are read lines: what becomes of a line of text is AssemblerText. That
the value of `.word` is below 2^32, and a line with a larger one an assembly error, is the model's choice (log entry 11). -/
def Obligations.AssemblerForms : Prop :=
  (∀ a b c : Nat, a < 256 → b < 256 → c < 256 →
    let word (m : Mnemonic) (os : List Nat) : Option Nat :=
      (assembleLine ⟨m, os.map Operand.number⟩).map BitVec.toNat
    word .enc3 [a, b, c] = some (0x10000000 + 65536 * c + 256 * b + a) ∧
    word .dec3 [a, b] = some (0x20000000 + 256 * b + a) ∧
    word .seqEnc [] = some 0x30000000 ∧
    word .seqDec [] = some 0x40000000 ∧
    word .tsWr [a, b] = some (0x50000000 + 256 * a + b) ∧
    word .tsRd [a] = some (0x60000000 + 256 * a) ∧
    word .psWr [a, b] = some (0x70000000 + 256 * a + b) ∧
    word .psRd [a] = some (0x80000000 + 256 * a) ∧
    word .hrStart [] = some 0x90000000 ∧
    word .hrChar [a] = some (0xA0000000 + a) ∧
    (assembleLine ⟨.hrChar, [.quoted a]⟩).map BitVec.toNat = some (0xA0000000 + a) ∧
    word .rand [] = some 0xB0000000) ∧
  (∀ w : Word, assembleLine ⟨.word, [.number w.toNat]⟩ = some w) ∧
  (∀ l : SourceLine, assembleLine l = none ↔
    l.operands.length ≠ l.mnemonic.arity ∨
    (∃ n, .number n ∈ l.operands ∧ (if l.mnemonic = .word then 2 ^ 32 else 256) ≤ n) ∨
    ∃ c, .quoted c ∈ l.operands ∧ (l.mnemonic ≠ .hrChar ∨ 256 ≤ c))

/-! ## Errors -/

/-- R83, R85: from a state with no error recorded, a word leaves the code of the first error of the order 1, 2, 3 that
applies to it, and no error when none applies. -/
def Obligations.FirstErrorInDecodeOrder : Prop :=
  ∀ (w : Word) (s : State), s.err = false → s.ecode = 0#3 →
    let op := w.toNat / 2 ^ 28
    let idx := w.toNat / 2 ^ 8 % 2 ^ 8
    ∃ t, runWord w s = .next t ∧
      (t.err = true ↔ t.ecode ≠ 0#3) ∧
      t.ecode.toNat =
        if op = 0 ∨ 12 ≤ op then 1
        else if ¬ ∃ row ∈ opcodeMap, w &&& row.mask = row.matchVal then 2
        else if ((op = 5 ∨ op = 6) ∧ 3 * s.cfg.groups ≤ idx) ∨ ((op = 7 ∨ op = 8) ∧ 2 * s.cfg.groups ≤ idx) then 3
        else 0

/-- R71: an element command whose index is out of range raises Error(3) and changes nothing else. -/
def Obligations.IndexOutOfRangeRaisesErrorThree : Prop :=
  ∀ (s : State) (idx val : Byte),
    (3 * s.cfg.groups ≤ idx.toNat →
      RaisesError 3 (exec (.tsWr idx val) s) s ∧ RaisesError 3 (exec (.tsRd idx) s) s) ∧
    (2 * s.cfg.groups ≤ idx.toNat →
      RaisesError 3 (exec (.psWr idx val) s) s ∧ RaisesError 3 (exec (.psRd idx) s) s)

/-- R21, R86: the error record is cleared only by reset, and later errors keep the first code. -/
def Obligations.ErrorRecordIsStickyUntilReset : Prop :=
  ∀ s t : State, step s = .next t → s.err = true → s.script.head? ≠ some .reset →
    t.err = true ∧ t.ecode = s.ecode

/-! ## The elementary packer -/

/-- R52 (with R50): ENC3 completes in every state. Its RES is the pair's two bytes, in wrap mode and for in-range trytes in
either mode; it writes nothing else. Any two states of equal parameters give equal RES: for an input above 26 in draw mode that
is the model's (log entry 2: deduced from R31 and R52 for one instance, its choice for two instances of equal parameters).
The word and the reserved bits are as R52 gives them. -/
def Obligations.EncTripleCommand : Prop :=
  (∀ (s : State) (t0 t1 t2 : Byte), ∃ t, exec (.enc3 t0 t1 t2) s = .next t ∧
    t = { s with res := t.res } ∧
    t.res.toNat < 2 ^ 16 ∧
    (s.cfg.oorMode = .wrap ∨ (t0.toNat ≤ 26 ∧ t1.toNat ≤ 26 ∧ t2.toNat ≤ 26) →
      t.res.toNat % 256 = (t0.toNat + 27 * (t2.toNat % 3)) % 256 ∧
      t.res.toNat / 256 = (t1.toNat + 27 * (t2.toNat / 3)) % 256)) ∧
  (∀ (s u v w : State) (t0 t1 t2 : Byte), s.cfg = u.cfg →
    exec (.enc3 t0 t1 t2) s = .next v → exec (.enc3 t0 t1 t2) u = .next w → v.res = w.res) ∧
  (∀ (w : Word) (t0 t1 t2 : Byte),
    w.toNat = 0x10000000 + t0.toNat + 256 * t1.toNat + 65536 * t2.toNat → decode w = .command (.enc3 t0 t1 t2)) ∧
  (∀ (w : Word) (s : State), w.toNat / 2 ^ 28 = 1 → w.toNat / 2 ^ 24 % 2 ^ 4 ≠ 0 → RaisesError 2 (runWord w s) s)

/-- R53 (with R51): DEC3 completes in every state. Its RES holds the three trytes, exact for every pair of bytes. It writes
nothing else. -/
def Obligations.DecPairCommand : Prop :=
  (∀ (s : State) (b0 b1 : Byte), ∃ t, exec (.dec3 b0 b1) s = .next t ∧
    t = { s with res := t.res } ∧
    t.res.toNat / 2 ^ 24 = 0 ∧
    t.res.toNat % 256 = b0.toNat % 27 ∧
    t.res.toNat / 2 ^ 8 % 256 = b1.toNat % 27 ∧
    t.res.toNat / 2 ^ 16 = b0.toNat / 27 + 3 * (b1.toNat / 27)) ∧
  (∀ (w : Word) (b0 b1 : Byte),
    w.toNat = 0x20000000 + b0.toNat + 256 * b1.toNat → decode w = .command (.dec3 b0 b1)) ∧
  (∀ (w : Word) (s : State), w.toNat / 2 ^ 28 = 2 → w.toNat / 2 ^ 16 % 2 ^ 12 ≠ 0 → RaisesError 2 (runWord w s) s)

/-- R54 in command form: for in-range trytes, ENC3 and then DEC3 of the two bytes of RES leave the triple in RES, in either
mode of the instance. -/
def Obligations.EncThenDecRestoresTheTriple : Prop :=
  ∀ (s : State) (t0 t1 t2 : Byte), t0.toNat ≤ 26 → t1.toNat ≤ 26 → t2.toNat ≤ 26 →
    ∃ u v, exec (.enc3 t0 t1 t2) s = .next u ∧
      exec (.dec3 (u.res.extractLsb' 0 8) (u.res.extractLsb' 8 8)) u = .next v ∧
      v.res.toNat = t0.toNat + 256 * t1.toNat + 65536 * t2.toNat

/-- R55: on in-range trytes `enc` is a bijection onto the nominal rectangle, and `dec` there is its inverse on both
sides, in either mode of the instance. -/
def Obligations.EncIsABijectionOntoTheNominalRectangle : Prop :=
  ∀ (c : Config) (k : EncCall),
    (∀ t0 t1 t2 : Byte, t0.toNat ≤ 26 → t1.toNat ≤ 26 → t2.toNat ≤ 26 →
      (enc c k t0 t1 t2).1.toNat ≤ 80 ∧ (enc c k t0 t1 t2).2.toNat ≤ 242 ∧
        dec (enc c k t0 t1 t2).1 (enc c k t0 t1 t2).2 = (t0, t1, t2)) ∧
    (∀ b0 b1 : Byte, b0.toNat ≤ 80 → b1.toNat ≤ 242 →
      (dec b0 b1).1.toNat ≤ 26 ∧ (dec b0 b1).2.1.toNat ≤ 26 ∧ (dec b0 b1).2.2.toNat ≤ 26 ∧
        enc c k (dec b0 b1).1 (dec b0 b1).2.1 (dec b0 b1).2.2 = (b0, b1))

/-- R51, R56: `dec` of any pair has its first two trytes in range and the third at most 36; in wrap mode, encoding the
decoded triple gives the pair back exactly when `b0 <= 80`, so not for (81, 0). -/
def Obligations.DecOutsideTheNominalRectangle : Prop :=
  ∀ (c : Config) (k : EncCall) (b0 b1 : Byte),
    (dec b0 b1).1.toNat ≤ 26 ∧ (dec b0 b1).2.1.toNat ≤ 26 ∧ (dec b0 b1).2.2.toNat ≤ 36 ∧
    (c.oorMode = .wrap →
      (enc c k (dec b0 b1).1 (dec b0 b1).2.1 (dec b0 b1).2.2 = (b0, b1) ↔ b0.toNat ≤ 80))

/-! ## Sequence encode and decode -/

/-- R57: SEQ_ENC completes in every legal state and writes every group of PS with `enc` of the same group of TS, in wrap
mode and for an in-range group in either mode; nothing else changes. In either mode SEQ_ENC again gives the same PS. In any two
states of equal parameters, equal groups of TS give equal groups of PS: for a group with an element above 26 in draw mode that
is the model's (log entry 2: deduced from R31 and R57 for one instance, its choice for two instances of equal parameters). The
word is exact. -/
def Obligations.SequenceEncodeCommand : Prop :=
  (∀ s : State, Legal s → ∃ t, exec .seqEnc s = .next t ∧
    t = { s with ps := t.ps } ∧
    exec .seqEnc t = .next t ∧
    t.ps.length = 2 * s.cfg.groups ∧
    ∀ i < s.cfg.groups, ∃ t0 t1 t2 b0 b1 : Byte,
      s.ts[3 * i]? = some t0 ∧ s.ts[3 * i + 1]? = some t1 ∧ s.ts[3 * i + 2]? = some t2 ∧
      t.ps[2 * i]? = some b0 ∧ t.ps[2 * i + 1]? = some b1 ∧
      (s.cfg.oorMode = .wrap ∨ (t0.toNat ≤ 26 ∧ t1.toNat ≤ 26 ∧ t2.toNat ≤ 26) →
        b0.toNat = (t0.toNat + 27 * (t2.toNat % 3)) % 256 ∧
        b1.toNat = (t1.toNat + 27 * (t2.toNat / 3)) % 256)) ∧
  (∀ s u v w : State, s.cfg = u.cfg → exec .seqEnc s = .next v → exec .seqEnc u = .next w →
    ∀ i < s.cfg.groups,
      s.ts[3 * i]? = u.ts[3 * i]? → s.ts[3 * i + 1]? = u.ts[3 * i + 1]? → s.ts[3 * i + 2]? = u.ts[3 * i + 2]? →
      v.ps[2 * i]? = w.ps[2 * i]? ∧ v.ps[2 * i + 1]? = w.ps[2 * i + 1]?) ∧
  decode 0x30000000#32 = .command .seqEnc ∧
  (∀ (w : Word) (s : State), w.toNat / 2 ^ 28 = 3 → w.toNat % 2 ^ 28 ≠ 0 → RaisesError 2 (runWord w s) s)

/-- R58: SEQ_DEC completes in every legal state and writes every group of TS with `dec` of the same group of PS; nothing
else changes, HRC included. The word is exact. -/
def Obligations.SequenceDecodeCommand : Prop :=
  (∀ s : State, Legal s → ∃ t, exec .seqDec s = .next t ∧
    t = { s with ts := t.ts } ∧
    t.ts.length = 3 * s.cfg.groups ∧
    ∀ i < s.cfg.groups, ∃ b0 b1 t0 t1 t2 : Byte,
      s.ps[2 * i]? = some b0 ∧ s.ps[2 * i + 1]? = some b1 ∧
      t.ts[3 * i]? = some t0 ∧ t.ts[3 * i + 1]? = some t1 ∧ t.ts[3 * i + 2]? = some t2 ∧
      t0.toNat = b0.toNat % 27 ∧ t1.toNat = b1.toNat % 27 ∧
      t2.toNat = b0.toNat / 27 + 3 * (b1.toNat / 27)) ∧
  decode 0x40000000#32 = .command .seqDec ∧
  (∀ (w : Word) (s : State), w.toNat / 2 ^ 28 = 4 → w.toNat % 2 ^ 28 ≠ 0 → RaisesError 2 (runWord w s) s)

/-- R59 in command form: from any legal state after a reset, the host's FROM_TRYTE_ARRAY of an in-range array, then SEQ_ENC,
then SEQ_DEC, leave TS equal to the array, in either mode of the instance; ERR, ECODE, RES, HRC and the rest but PS are as
before. -/
def Obligations.SequenceRoundTrip : Prop :=
  ∀ (s : State) (raw : List Byte) (acts rest : List HostAction),
    Legal s → s.wasReset = true → (∀ v ∈ raw, v.toNat ≤ 26) →
    expandPseudo s.cfg.groups (.fromTryteArray raw) = some acts →
    s.script = acts ++ [present .seqEnc, present .seqDec] ++ rest →
    ∃ t, stepMany (acts.length + 2) s = .next t ∧
      t = { s with ts := raw, ps := t.ps, script := rest, pos := s.pos + 3 * s.cfg.groups + 2 }

/-- R61: an all-zero TS encodes to an all-zero PS and back to itself. -/
def Obligations.AllZeroSequenceEncodesToAllZero : Prop :=
  ∀ s : State, Legal s → (∀ v ∈ s.ts, v = 0#8) →
    ∃ u v, exec .seqEnc s = .next u ∧ (∀ b ∈ u.ps, b = 0#8) ∧ u.ps.length = 2 * s.cfg.groups ∧
      exec .seqDec u = .next v ∧ v.ts = s.ts

/-- R62: SEQ_DEC then SEQ_ENC leave every nominal pair of PS as it was, whatever the other pairs are; so all of PS when
every pair is nominal. -/
def Obligations.DecodeThenEncodeKeepsNominalPairs : Prop :=
  ∀ s : State, Legal s → ∃ u v, exec .seqDec s = .next u ∧ exec .seqEnc u = .next v ∧
    (∀ i < s.cfg.groups, (readPs (2 * i) s).toNat ≤ 80 → (readPs (2 * i + 1) s).toNat ≤ 242 →
      v.ps[2 * i]? = s.ps[2 * i]? ∧ v.ps[2 * i + 1]? = s.ps[2 * i + 1]?) ∧
    (PsNominal s → v.ps = s.ps)

/-! ## Human-readable ingress -/

/-- R63, R66, R67: `hr` is 0 for `'9'`, else `(c + 192) mod 256`; the in-range results come exactly from `'9'`, `'@'` and
`'A'` to `'Z'`. -/
def Obligations.CharacterMap : Prop :=
  ∀ c : Byte,
    (hr c).toNat = (if c.toNat = 0x39 then 0 else (c.toNat + 192) % 256) ∧
    ((hr c).toNat ≤ 26 ↔ c.toNat = 0x39 ∨ c.toNat = 0x40 ∨ (0x41 ≤ c.toNat ∧ c.toNat ≤ 0x5A)) ∧
    (0x41 ≤ c.toNat → c.toNat ≤ 0x5A → (hr c).toNat = c.toNat - 0x40)

/-- R64: HR_START completes in every state, makes every element of TS 0 and HRC 0, and changes nothing else. The word is
exact. -/
def Obligations.StringStartCommand : Prop :=
  (∀ s : State, ∃ t, exec .hrStart s = .next t ∧
    t = { s with ts := t.ts, hrc := 0#8 } ∧ t.ts.length = 3 * s.cfg.groups ∧ ∀ v ∈ t.ts, v = 0#8) ∧
  decode 0x90000000#32 = .command .hrStart ∧
  (∀ (w : Word) (s : State), w.toNat / 2 ^ 28 = 9 → w.toNat % 2 ^ 28 ≠ 0 → RaisesError 2 (runWord w s) s)

/-- R65: HR_CHAR completes in every legal state. Below `3L` it stores the character's tryte at the cursor and advances the
cursor by 1; at `3L` it changes nothing. The word and the reserved bits are as R65 gives them. -/
def Obligations.StringCharacterCommand : Prop :=
  (∀ (s : State) (ch : Byte), Legal s → ∃ t, exec (.hrChar ch) s = .next t ∧
    (s.hrc.toNat < 3 * s.cfg.groups →
      t = { s with ts := t.ts, hrc := t.hrc } ∧
      t.hrc.toNat = s.hrc.toNat + 1 ∧
      t.ts.length = s.ts.length ∧
      (∃ v, t.ts[s.hrc.toNat]? = some v ∧
        v.toNat = if ch.toNat = 0x39 then 0 else (ch.toNat + 192) % 256) ∧
      ∀ k, k ≠ s.hrc.toNat → t.ts[k]? = s.ts[k]?) ∧
    (s.hrc.toNat = 3 * s.cfg.groups → t = s)) ∧
  (∀ (w : Word) (ch : Byte), w.toNat = 0xA0000000 + ch.toNat → decode w = .command (.hrChar ch)) ∧
  (∀ (w : Word) (s : State), w.toNat / 2 ^ 28 = 10 → w.toNat / 2 ^ 8 % 2 ^ 20 ≠ 0 → RaisesError 2 (runWord w s) s)

/-- R68, R69: from any legal state after a reset, the host's FROM_HUMAN_READABLE of a string of any length leaves TS the
string's trytes, padded with 0 or cut at `3L`, and HRC the smaller of the length and `3L`; PS, RES and the rest are as
before. -/
def Obligations.StringIsPaddedAndTruncated : Prop :=
  ∀ (s : State) (text : List Byte) (acts rest : List HostAction),
    Legal s → s.wasReset = true →
    expandPseudo s.cfg.groups (.fromHumanReadable text) = some acts → s.script = acts ++ rest →
    ∃ t, stepMany acts.length s = .next t ∧
      t = { s with ts := t.ts, hrc := t.hrc, script := rest, pos := s.pos + 1 + text.length } ∧
      t.ts = (text.map hr ++ List.replicate (3 * s.cfg.groups) 0#8).take (3 * s.cfg.groups) ∧
      t.hrc.toNat = min text.length (3 * s.cfg.groups)

/-! ## Raw array and packed interchange -/

/-- R72: TS_WR with an index in range completes in every legal state, stores the value unchecked at the index and changes
nothing else; out of range it raises Error(3). The word and the reserved bits are as R72 gives them. -/
def Obligations.TryteWriteCommand : Prop :=
  (∀ (s : State) (idx val : Byte), Legal s → idx.toNat < 3 * s.cfg.groups →
    ∃ t, exec (.tsWr idx val) s = .next t ∧ t = { s with ts := t.ts } ∧ t.ts.length = s.ts.length ∧
      t.ts[idx.toNat]? = some val ∧ ∀ k, k ≠ idx.toNat → t.ts[k]? = s.ts[k]?) ∧
  (∀ (s : State) (idx val : Byte), 3 * s.cfg.groups ≤ idx.toNat → RaisesError 3 (exec (.tsWr idx val) s) s) ∧
  (∀ (w : Word) (idx val : Byte),
    w.toNat = 0x50000000 + 256 * idx.toNat + val.toNat → decode w = .command (.tsWr idx val)) ∧
  (∀ (w : Word) (s : State), w.toNat / 2 ^ 28 = 5 → w.toNat / 2 ^ 16 % 2 ^ 12 ≠ 0 → RaisesError 2 (runWord w s) s)

/-- R73: TS_RD with an index in range completes in every legal state, puts the element in RES[7:0] with 0 above, and
changes nothing else; out of range it raises Error(3). The word and the reserved bits are as R73 gives them. -/
def Obligations.TryteReadCommand : Prop :=
  (∀ (s : State) (idx : Byte), Legal s → idx.toNat < 3 * s.cfg.groups →
    ∃ t v, exec (.tsRd idx) s = .next t ∧ t = { s with res := t.res } ∧
      s.ts[idx.toNat]? = some v ∧ t.res.toNat = v.toNat) ∧
  (∀ (s : State) (idx : Byte), 3 * s.cfg.groups ≤ idx.toNat → RaisesError 3 (exec (.tsRd idx) s) s) ∧
  (∀ (w : Word) (idx : Byte), w.toNat = 0x60000000 + 256 * idx.toNat → decode w = .command (.tsRd idx)) ∧
  (∀ (w : Word) (s : State), w.toNat / 2 ^ 28 = 6 → (w.toNat / 2 ^ 16 % 2 ^ 12 ≠ 0 ∨ w.toNat % 2 ^ 8 ≠ 0) →
    RaisesError 2 (runWord w s) s)

/-- R74: PS_WR with an index in range completes in every legal state, stores the value unchecked at the index and changes
nothing else; out of range it raises Error(3). The word and the reserved bits are as R74 gives them. -/
def Obligations.PackedWriteCommand : Prop :=
  (∀ (s : State) (idx val : Byte), Legal s → idx.toNat < 2 * s.cfg.groups →
    ∃ t, exec (.psWr idx val) s = .next t ∧ t = { s with ps := t.ps } ∧ t.ps.length = s.ps.length ∧
      t.ps[idx.toNat]? = some val ∧ ∀ j, j ≠ idx.toNat → t.ps[j]? = s.ps[j]?) ∧
  (∀ (s : State) (idx val : Byte), 2 * s.cfg.groups ≤ idx.toNat → RaisesError 3 (exec (.psWr idx val) s) s) ∧
  (∀ (w : Word) (idx val : Byte),
    w.toNat = 0x70000000 + 256 * idx.toNat + val.toNat → decode w = .command (.psWr idx val)) ∧
  (∀ (w : Word) (s : State), w.toNat / 2 ^ 28 = 7 → w.toNat / 2 ^ 16 % 2 ^ 12 ≠ 0 → RaisesError 2 (runWord w s) s)

/-- R75: PS_RD with an index in range completes in every legal state, puts the element in RES[7:0] with 0 above, and
changes nothing else; out of range it raises Error(3). The word and the reserved bits are as R75 gives them. -/
def Obligations.PackedReadCommand : Prop :=
  (∀ (s : State) (idx : Byte), Legal s → idx.toNat < 2 * s.cfg.groups →
    ∃ t v, exec (.psRd idx) s = .next t ∧ t = { s with res := t.res } ∧
      s.ps[idx.toNat]? = some v ∧ t.res.toNat = v.toNat) ∧
  (∀ (s : State) (idx : Byte), 2 * s.cfg.groups ≤ idx.toNat → RaisesError 3 (exec (.psRd idx) s) s) ∧
  (∀ (w : Word) (idx : Byte), w.toNat = 0x80000000 + 256 * idx.toNat → decode w = .command (.psRd idx)) ∧
  (∀ (w : Word) (s : State), w.toNat / 2 ^ 28 = 8 → (w.toNat / 2 ^ 16 % 2 ^ 12 ≠ 0 ∨ w.toNat % 2 ^ 8 ≠ 0) →
    RaisesError 2 (runWord w s) s)

/-- R76: from any legal state after a reset, the host's FROM_TRYTE_ARRAY leaves TS equal to the array, with no range
validation, and PS, RES, HRC and the rest as they were. -/
def Obligations.FromTryteArrayStoresTheArray : Prop :=
  ∀ (s : State) (raw : List Byte) (acts rest : List HostAction),
    Legal s → s.wasReset = true →
    expandPseudo s.cfg.groups (.fromTryteArray raw) = some acts → s.script = acts ++ rest →
    ∃ t, stepMany acts.length s = .next t ∧
      t = { s with ts := raw, script := rest, pos := s.pos + 3 * s.cfg.groups }

/-- R77: from any legal state after a reset, the host's AS_TRYTE_ARRAY reads every element of TS in index order on the
result port, and changes only RES; and FROM_TRYTE_ARRAY of that array then leaves TS as it was. That the values read are
appended to a record of the host is the model's choice (log entry 8); R103 counts them. -/
def Obligations.AsTryteArrayReadsTheArray : Prop :=
  ∀ (s : State) (acts rest : List HostAction),
    Legal s → s.wasReset = true →
    expandPseudo s.cfg.groups .asTryteArray = some acts → s.script = acts ++ rest →
    ∃ t, stepMany acts.length s = .next t ∧
      t = { s with res := t.res, reads := t.reads, script := rest, pos := s.pos + 3 * s.cfg.groups } ∧
      t.reads = s.reads ++ s.ts.map (fun v => Reading.result (BitVec.ofNat 32 v.toNat)) ∧
      ∀ writes after : List HostAction,
        expandPseudo s.cfg.groups (.fromTryteArray s.ts) = some writes → rest = writes ++ after →
        ∃ u, stepMany writes.length t = .next u ∧ u.ts = s.ts

/-- R78: from any legal state after a reset, READ_PACKED reads every element of PS in index order on the result port and
changes only RES; after LOAD_PACKED it reads back the bytes loaded; and after SEQ_ENC of an in-range TS every pair is nominal. That the values read are appended to a record of the host is the model's choice (log entry 8); R103 counts
them. -/
def Obligations.PackedInterchange : Prop :=
  (∀ (s : State) (read rest : List HostAction),
    Legal s → s.wasReset = true →
    expandPseudo s.cfg.groups .readPacked = some read → s.script = read ++ rest →
    ∃ t, stepMany read.length s = .next t ∧
      t = { s with res := t.res, reads := t.reads, script := rest, pos := s.pos + 2 * s.cfg.groups } ∧
      t.reads = s.reads ++ s.ps.map fun v => Reading.result (BitVec.ofNat 32 v.toNat)) ∧
  (∀ (s : State) (bytes : List Byte) (load read rest : List HostAction),
    Legal s → s.wasReset = true →
    expandPseudo s.cfg.groups (.loadPacked bytes) = some load →
    expandPseudo s.cfg.groups .readPacked = some read → s.script = load ++ read ++ rest →
    ∃ t, stepMany (load.length + read.length) s = .next t ∧
      t = { s with ps := bytes, res := t.res, reads := t.reads, script := rest, pos := s.pos + 4 * s.cfg.groups } ∧
      t.reads = s.reads ++ bytes.map fun v => Reading.result (BitVec.ofNat 32 v.toNat)) ∧
  (∀ s : State, Legal s → TsInRange s → ∃ t, exec .seqEnc s = .next t ∧
    ∀ i < s.cfg.groups, (readPs (2 * i) t).toNat ≤ 80 ∧ (readPs (2 * i + 1) t).toNat ≤ 242)

/-! ## Random sequence -/

/-- R80 (with R79): RAND completes in every state. It writes all `3L` elements of TS, each in `[0, 26]`, the first of them
the values lined up on the entropy input in order, and takes those; nothing else of the block changes. The word is exact,
and a word with a reserved bit set takes no entropy. What an element beyond the values lined up is, is free. -/
def Obligations.RandomFillCommand : Prop :=
  (∀ s : State, ∃ t, exec .rand s = .next t ∧
    t = { s with ts := t.ts, entropy := s.entropy.drop (3 * s.cfg.groups), draws := t.draws } ∧
    t.ts.length = 3 * s.cfg.groups ∧ (∀ v ∈ t.ts, v.toNat ≤ 26) ∧
    (t.ts.map BitVec.toNat).take s.entropy.length = (s.entropy.map Fin.val).take (3 * s.cfg.groups)) ∧
  decode 0xB0000000#32 = .command .rand ∧
  (∀ (w : Word) (s : State), w.toNat / 2 ^ 28 = 11 → w.toNat % 2 ^ 28 ≠ 0 → RaisesError 2 (runWord w s) s)

/-- R81: after RAND, SEQ_ENC, SEQ_DEC, TS holds the values RAND drew, for every draw and in either mode. -/
def Obligations.RandomSequenceRoundTrip : Prop :=
  ∀ s : State, Legal s → ∃ u v t, exec .rand s = .next u ∧ exec .seqEnc u = .next v ∧ exec .seqDec v = .next t ∧
    TsInRange u ∧ t.ts = u.ts

/-! ## The whole machine -/

/-- The invariant: from every state that meets it, a step that answers a next state gives one that meets it (R7, R20, R22,
R60, R98). -/
def Obligations.StepKeepsInvariant : Prop :=
  ∀ s t : State, Inv s → step s = .next t → Inv t

/-- R23: the reset state of every instance, field by field, with the STATUS word it reads as. -/
def Obligations.ResetValues : Prop :=
  ∀ c : Config, c.wellFormed = true →
    (State.resetOf c).ts = List.replicate (3 * c.groups) 0#8 ∧
    (State.resetOf c).ps = List.replicate (2 * c.groups) 0#8 ∧
    (State.resetOf c).res = 0#32 ∧ (State.resetOf c).err = false ∧ (State.resetOf c).ecode = 0#3 ∧
    (State.resetOf c).hrc = 0#8 ∧ (statusWord (State.resetOf c)).toNat = 65536 * c.groups

/-- The invariant holds at the reset state of every instance, and at `State.reset`, which is the one of log entry 1 (the
model's choice). -/
def Obligations.InvariantAtReset : Prop :=
  (∀ c : Config, c.wellFormed = true → Inv (State.resetOf c)) ∧ Inv State.reset

/-- R97: the reset input, in any state, also before the first reset (log entry 7), takes one step, puts every register at
the value of R23 and changes neither `L` nor, by the model's choice (log entry 10), what is outside the block. -/
def Obligations.ResetInputClearsEveryRegister : Prop :=
  ∀ (s : State) (rest : List HostAction), s.script = .reset :: rest →
    step s = .next
      { s with
        ts := List.replicate (3 * s.cfg.groups) 0#8, ps := List.replicate (2 * s.cfg.groups) 0#8,
        res := 0#32, err := false, ecode := 0#3, hrc := 0#8, wasReset := true, script := rest }

/-- R5, R60: no step changes the instance's parameters, and from the first reset on the arrays have `3L` and `2L`
elements. -/
def Obligations.LengthsNeverChange : Prop :=
  ∀ s t : State, Inv s → step s = .next t →
    t.cfg = s.cfg ∧
    (s.wasReset = true → t.ts.length = 3 * s.cfg.groups ∧ t.ps.length = 2 * s.cfg.groups)

/-- R13: TS is written by TS_WR, HR_START, HR_CHAR, RAND and SEQ_DEC and by no other command, one element by TS_WR and
HR_CHAR. No command but TS_RD and SEQ_ENC reads TS: with any other array in TS, the effect outside TS is the same, the
commands that write all of TS leave the same TS, those that write one element store the same element and keep the others,
and the rest keep TS. TS_RD reads the one element of its index. -/
def Obligations.TryteSequenceReadersAndWriters : Prop :=
  (∀ (i : Instr) (s t : State), exec i s = .next t →
    t.ts = s.ts ∨
      (match i with
        | .hrStart | .rand | .seqDec => True
        | .tsWr idx _ => ∀ k, k ≠ idx.toNat → t.ts[k]? = s.ts[k]?
        | .hrChar _ => ∀ k, k ≠ s.hrc.toNat → t.ts[k]? = s.ts[k]?
        | .enc3 _ _ _ | .dec3 _ _ | .seqEnc | .tsRd _ | .psWr _ _ | .psRd _ => False)) ∧
  (∀ (i : Instr) (s t : State) (l : List Byte), exec i s = .next t → i ≠ .seqEnc → (∀ idx, i ≠ .tsRd idx) →
    ∃ l', exec i { s with ts := l } = .next { t with ts := l' } ∧
      (match i with
        | .hrStart | .rand | .seqDec => l' = t.ts
        | .tsWr idx _ =>
          if idx.toNat < 3 * s.cfg.groups then
            (∀ k, k ≠ idx.toNat → l'[k]? = l[k]?) ∧ (l.length = s.ts.length → l'[idx.toNat]? = t.ts[idx.toNat]?)
          else l' = l
        | .hrChar _ =>
          if s.hrc.toNat < 3 * s.cfg.groups then
            (∀ k, k ≠ s.hrc.toNat → l'[k]? = l[k]?) ∧ (l.length = s.ts.length → l'[s.hrc.toNat]? = t.ts[s.hrc.toNat]?)
          else l' = l
        | .enc3 _ _ _ | .dec3 _ _ | .seqEnc | .tsRd _ | .psWr _ _ | .psRd _ => l' = l)) ∧
  (∀ (idx : Byte) (s t : State) (l : List Byte), exec (.tsRd idx) s = .next t → l[idx.toNat]? = s.ts[idx.toNat]? →
    exec (.tsRd idx) { s with ts := l } = .next { t with ts := l })

/-- R15: PS is written by PS_WR (one element) and SEQ_ENC and by no other command. No command but PS_RD and SEQ_DEC reads
PS: with any other array in PS, the effect outside PS is the same, SEQ_ENC leaves the same PS, PS_WR stores the same element
and keeps the others, and the rest keep PS. PS_RD reads the one element of its index. -/
def Obligations.PackedSequenceReadersAndWriters : Prop :=
  (∀ (i : Instr) (s t : State), exec i s = .next t →
    t.ps = s.ps ∨
      (match i with
        | .seqEnc => True
        | .psWr idx _ => ∀ j, j ≠ idx.toNat → t.ps[j]? = s.ps[j]?
        | .enc3 _ _ _ | .dec3 _ _ | .seqDec | .tsWr _ _ | .tsRd _ | .psRd _ | .hrStart | .hrChar _ | .rand => False)) ∧
  (∀ (i : Instr) (s t : State) (l : List Byte), exec i s = .next t → i ≠ .seqDec → (∀ idx, i ≠ .psRd idx) →
    ∃ l', exec i { s with ps := l } = .next { t with ps := l' } ∧
      (match i with
        | .seqEnc => l' = t.ps
        | .psWr idx _ =>
          if idx.toNat < 2 * s.cfg.groups then
            (∀ j, j ≠ idx.toNat → l'[j]? = l[j]?) ∧ (l.length = s.ps.length → l'[idx.toNat]? = t.ps[idx.toNat]?)
          else l' = l
        | .enc3 _ _ _ | .dec3 _ _ | .seqDec | .tsWr _ _ | .tsRd _ | .psRd _ | .hrStart | .hrChar _ | .rand => l' = l)) ∧
  (∀ (idx : Byte) (s t : State) (l : List Byte), exec (.psRd idx) s = .next t → l[idx.toNat]? = s.ps[idx.toNat]? →
    exec (.psRd idx) { s with ps := l } = .next { t with ps := l })

/-- Of the decoded commands (R16, R22, R21, R71, R83): RES is written by ENC3, DEC3, TS_RD and PS_RD only, HRC by HR_START and
HR_CHAR only, and one that records the first error is TS_WR, TS_RD, PS_WR or PS_RD, the error is Error(3), and RES and HRC stay
as they were. The errors of a word that decodes to no command are IllegalOpcodeRaisesErrorOne and ReservedBitsRaiseErrorTwo. -/
def Obligations.ResultAndCursorWriters : Prop :=
  ∀ (i : Instr) (s t : State), exec i s = .next t →
    (t.res ≠ s.res →
      match i with
      | .enc3 _ _ _ | .dec3 _ _ | .tsRd _ | .psRd _ => True
      | .seqEnc | .seqDec | .tsWr _ _ | .psWr _ _ | .hrStart | .hrChar _ | .rand => False) ∧
    (t.hrc ≠ s.hrc → i = .hrStart ∨ ∃ ch, i = .hrChar ch) ∧
    (s.err = false → t.err = true →
      RaisesError 3 (.next t) s ∧
      match i with
      | .tsWr _ _ | .tsRd _ | .psWr _ _ | .psRd _ => True
      | .enc3 _ _ _ | .dec3 _ _ | .seqEnc | .seqDec | .hrStart | .hrChar _ | .rand => False)

/-- R31: in either mode every command but RAND is a function of the block's registers and the command: the entropy input,
the count of draws, the host's list, its readings and its position change nothing in what it does. For an encode with an input
above 26 in draw mode this is the model's deduction from R31 (log entry 2). -/
def Obligations.EveryCommandButRandIsDeterministic : Prop :=
  ∀ (i : Instr) (s t : State) (e : List (Fin 27)) (d : Nat) (sc : List HostAction) (r : List Reading) (p : Nat),
    i ≠ .rand → exec i s = .next t →
    exec i { s with entropy := e, draws := d, script := sc, reads := r, pos := p } =
      .next { t with entropy := e, draws := d, script := sc, reads := r, pos := p }

/-- R100: every word on the command port completes, in every state, and it moves neither the host's list nor what the host
has read nor the instance. -/
def Obligations.EveryWordCompletes : Prop :=
  ∀ (w : Word) (s : State), ∃ t, runWord w s = .next t ∧
    t.cfg = s.cfg ∧ t.script = s.script ∧ t.reads = s.reads ∧ t.pos = s.pos ∧ t.wasReset = s.wasReset

/-- A step runs the decoded instruction: when the host's next word decodes to `i`, one step is `exec i`, with the word
taken off the host's list and the host's position advanced by exactly 1 (R17, R34). -/
def Obligations.StepRunsTheDecodedCommand : Prop :=
  ∀ (s : State) (w : Word) (rest : List HostAction) (i : Instr),
    s.wasReset = true → s.script = .command w :: rest → decode w = .command i →
    step s = exec i { s with script := rest, pos := s.pos + 1 }

/-- R17, R86: a word that spells no command advances the host's position by exactly 1 too, records its error, and leaves
the next action to be taken as usual. -/
def Obligations.StepOnAWordThatSpellsNoCommand : Prop :=
  ∀ (s : State) (w : Word) (rest : List HostAction),
    s.wasReset = true → s.script = .command w :: rest →
    (decode w = .illegalOpcode → RaisesError 1 (step s) { s with script := rest, pos := s.pos + 1 }) ∧
    (decode w = .reservedField → RaisesError 2 (step s) { s with script := rest, pos := s.pos + 1 })

/-- R20: the STATUS word of a legal state, field by field, with the fields' legal values; and reading it on its port changes
nothing of the block. That the value read is appended to a record of the host is the model's choice (log entry 8); R103
counts it. -/
def Obligations.StatusRegister : Prop :=
  ∀ s : State, Legal s →
    (statusWord s).toNat = (if s.err then 1 else 0) + 2 * s.ecode.toNat + 256 * s.hrc.toNat + 65536 * s.cfg.groups ∧
    s.ecode.toNat ≤ 3 ∧ (s.err = false ↔ s.ecode.toNat = 0) ∧ s.hrc.toNat ≤ 3 * s.cfg.groups ∧
    ∀ rest, s.wasReset = true → s.script = .readStatus :: rest →
      step s = .next { s with script := rest, reads := s.reads ++ [.status (statusWord s)] }

/-- R16, R24: reading RES on its port gives RES and changes nothing of the block. That the value read is appended to a record
of the host is the model's choice (log entry 8); R103 counts it. -/
def Obligations.ResultPortRead : Prop :=
  ∀ (s : State) (rest : List HostAction), s.wasReset = true → s.script = .readResult :: rest →
    step s = .next { s with script := rest, reads := s.reads ++ [.result s.res] }

/-- R96 (log entry 5, deduced): with no action of the host pending the block holds its state unchanged. -/
def Obligations.IdleHoldsTheState : Prop :=
  ∀ s : State, s.script = [] → step s = .next s

/-- R98 (log entry 7): the step stops exactly when the host presents a command or reads a port before the first reset,
with the fault of that name; it never refuses. -/
def Obligations.StopsOnlyBeforeTheFirstReset : Prop :=
  ∀ s : State,
    (step s = .fault .beforeFirstReset ↔
      s.wasReset = false ∧ s.script ≠ [] ∧ s.script.head? ≠ some .reset) ∧
    ∀ r, step s ≠ .refused r

/-! ## The assembler on text -/

/-- R48 on lines of text, with the spelling of log entry 11 where R48 leaves it open. A list of lines is an assembly error
exactly when one of them cannot be read or is read and is an assembly error (AssemblerForms says when). A line whose first
word is no mnemonic cannot be read. A mnemonic alone is read as a line with no operands. After a mnemonic and a blank,
operands between commas are read as written: each a decimal number or `0x` and hexadecimal digits of either letter case, of
any size (AssemblerForms says which sizes a form takes); one that is neither makes the line an error. A quoted character,
whichever it is, is read as its code, which for a character that is not ASCII is the model's choice (log entry 11). -/
def Obligations.AssemblerText : Prop :=
  let forms : List (String × Mnemonic) :=
    [("ENC3", .enc3), ("DEC3", .dec3), ("SEQ_ENC", .seqEnc), ("SEQ_DEC", .seqDec), ("TS_WR", .tsWr), ("TS_RD", .tsRd),
      ("PS_WR", .psWr), ("PS_RD", .psRd), ("HR_START", .hrStart), ("HR_CHAR", .hrChar), ("RAND", .rand), (".word", .word)]
  let plain (t : List Char) : Prop := t ≠ [] ∧ ∀ c ∈ t, c ∉ [' ', '\t', '\r', ';', ',', '\'']
  let line (name : List Char) (operands : List (List Char)) : List Char :=
    name ++ ' ' :: List.intercalate [',', ' '] operands
  let readable (t : List Char) : Prop :=
    (∀ c ∈ t, c ∈ "0123456789".toList) ∨
      ∃ h, t = '0' :: 'x' :: h ∧ h ≠ [] ∧ ∀ c ∈ h, c ∈ "0123456789ABCDEFabcdef".toList
  (∀ lines, assembleLines lines = none ↔
    ∃ t ∈ lines, parseLine t = .error ∨ ∃ l, parseLine t = .line l ∧ assembleLine l = none) ∧
  (∀ (name : List Char) (operands : List (List Char)), plain name → (∀ t ∈ operands, plain t) →
    (∀ f ∈ forms, f.1.toList ≠ name) → parseLine (line name operands) = .error) ∧
  (∀ f ∈ forms, parseLine f.1.toList = .line ⟨f.2, []⟩) ∧
  (∀ f ∈ forms, ∀ operands : List (List Char), (∀ t ∈ operands, plain t) →
    (parseLine (line f.1.toList operands) = .error ↔ ∃ t ∈ operands, ¬ readable t)) ∧
  (∀ f ∈ forms, ∀ values : List Nat,
    parseLine (line f.1.toList (values.map fun v => Nat.toDigits 10 v)) = .line ⟨f.2, values.map .number⟩ ∧
    parseLine (line f.1.toList (values.map fun v => '0' :: 'x' :: Nat.toDigits 16 v)) =
      .line ⟨f.2, values.map .number⟩ ∧
    parseLine (line f.1.toList (values.map fun v => '0' :: 'x' :: (Nat.toDigits 16 v).map Char.toUpper)) =
      .line ⟨f.2, values.map .number⟩) ∧
  (∀ c : Char, parseLine (line "HR_CHAR".toList [['\'', c, '\'']]) = .line ⟨.hrChar, [.quoted c.toNat]⟩)

/-- R48: a `;` and what follows it change nothing of what a line is read as, also after a quoted character, whichever it is;
what stands before it holds no `;` and no quote but that character's. A line of white space, with or without a comment, is no
command (log entry 11), and a list of lines gives the words of its commands in order. -/
def Obligations.AssemblerCommentsAndBlankLines : Prop :=
  (∀ text comment : List Char, '\'' ∉ text → ';' ∉ text → parseLine (text ++ ';' :: comment) = parseLine text) ∧
  (∀ (c : Char) (comment : List Char),
    parseLine ("HR_CHAR ".toList ++ '\'' :: c :: '\'' :: ' ' :: ';' :: comment) = .line ⟨.hrChar, [.quoted c.toNat]⟩) ∧
  (∀ text : List Char, (∀ c ∈ text, c ∈ [' ', '\t', '\r']) →
    parseLine text = .empty ∧ ∀ comment, parseLine (text ++ ';' :: comment) = .empty) ∧
  (∀ (t : List Char) (ts : List (List Char)),
    (parseLine t = .empty → assembleLines (t :: ts) = assembleLines ts) ∧
    ∀ (l : SourceLine) (w : Word) (ws : List Word), parseLine t = .line l → assembleLine l = some w →
      assembleLines ts = some ws → assembleLines (t :: ts) = some (w :: ws))
end

