-- ==== Sys2Proof/Laws/Assembler.lean ====
section
/-! SUPPORT. What reading a line of text does, said once per function of the reader, and the line of a mnemonic and operands
between commas read as a whole. -/

namespace Sys2Proof.Machine

/-- A token: it is not empty and holds no character that separates tokens, begins a comment or quotes. -/
abbrev PlainToken (t : List Char) : Prop := t ≠ [] ∧ ∀ c ∈ t, c ∉ [' ', '\t', '\r', ';', ',', '\'']

theorem PlainToken.not_blank {t : List Char} (h : PlainToken t) {c : Char} (hc : c ∈ t) : isBlankChar c = false := by
  have := h.2 c hc
  simp only [List.mem_cons, not_or] at this
  simp [isBlankChar, this.1, this.2.1, this.2.2.1]

theorem PlainToken.no_mark {t : List Char} (h : PlainToken t) {c : Char} (hc : c ∈ t) :
    c ≠ '\'' ∧ c ≠ ';' ∧ c ≠ ',' := by
  have := h.2 c hc
  simp only [List.mem_cons, not_or] at this
  exact ⟨this.2.2.2.2.2.1, this.2.2.2.1, this.2.2.2.2.1⟩

/-- What begins with a token does not begin with white space. -/
theorem PlainToken.head_append {t : List Char} (rest : List Char) (h : PlainToken t) :
    ∀ c ∈ (t ++ rest).head?, isBlankChar c = false := by
  obtain ⟨a, as, rfl⟩ := List.exists_cons_of_ne_nil h.1
  intro c hc
  obtain rfl := Option.some.inj hc
  exact h.not_blank (by simp)

/-- Without a quote or a `;` nothing is stripped. -/
theorem stripComment_eq_self {l : List Char} (h : ∀ c ∈ l, c ≠ '\'' ∧ c ≠ ';') : stripComment l = l := by
  induction l with
  | nil => rfl
  | cons c l ih =>
    obtain ⟨hq, hs⟩ := h c (by simp)
    rw [stripComment, ih fun d hd => h d (by simp [hd])]
    · intro _ _ hc; exact absurd hc hq
    · exact hs

/-- What stands before the first `;` stays, if it holds no quote. -/
theorem stripComment_comment {l : List Char} (comment : List Char) (h : ∀ c ∈ l, c ≠ '\'' ∧ c ≠ ';') :
    stripComment (l ++ ';' :: comment) = l := by
  induction l with
  | nil => rfl
  | cons c l ih =>
    obtain ⟨hq, hs⟩ := h c (by simp)
    rw [List.cons_append, stripComment, ih fun d hd => h d (by simp [hd])]
    · intro _ _ hc; exact absurd hc hq
    · exact hs

/-- A text of white space is trimmed to nothing. -/
theorem trimBlanks_blank {l : List Char} (h : ∀ c ∈ l, isBlankChar c = true) : trimBlanks l = [] := by
  rw [trimBlanks, List.dropWhile_eq_nil_iff.2 h]
  rfl

/-- A text that begins and ends with something other than white space is as it was. -/
theorem trimBlanks_eq_self {l : List Char} (hh : ∀ c ∈ l.head?, isBlankChar c = false)
    (ht : ∀ c ∈ l.getLast?, isBlankChar c = false) : trimBlanks l = l := by
  have h1 : l.dropWhile isBlankChar = l := by
    cases l with
    | nil => rfl
    | cons c l => rw [List.dropWhile_cons_of_neg]; simpa using hh c rfl
  have h2 : l.reverse.dropWhile isBlankChar = l.reverse := by
    cases hr : l.reverse with
    | nil => rfl
    | cons c r =>
      rw [List.dropWhile_cons_of_neg]
      simpa using ht c (by rw [← List.head?_reverse, hr]; rfl)
  rw [trimBlanks, h1, h2, List.reverse_reverse]

theorem trimBlanks_cons_blank (l : List Char) : trimBlanks (' ' :: l) = trimBlanks l := by
  rw [trimBlanks, List.dropWhile_cons_of_pos (by decide)]
  rfl

theorem trimBlanks_token {t : List Char} (h : PlainToken t) : trimBlanks t = t :=
  trimBlanks_eq_self (fun _ hc => h.not_blank (List.mem_of_mem_head? hc))
    (fun _ hc => h.not_blank (List.mem_of_mem_getLast? hc))

/-- A token with no comma after it is one piece. -/
theorem splitCommas_token {t : List Char} (h : ∀ c ∈ t, c ≠ '\'' ∧ c ≠ ',') : splitCommas t = [t] := by
  induction t with
  | nil => rfl
  | cons c t ih =>
    obtain ⟨hq, hs⟩ := h c (by simp)
    rw [splitCommas, ih fun d hd => h d (by simp [hd])]
    · rfl
    · intro _ _ hc; exact absurd hc hq
    · exact hs

/-- A token before a comma is the first piece. -/
theorem splitCommas_token_comma {t : List Char} (rest : List Char) (h : ∀ c ∈ t, c ≠ '\'' ∧ c ≠ ',') :
    splitCommas (t ++ ',' :: rest) = t :: splitCommas rest := by
  induction t with
  | nil => simp [splitCommas]
  | cons c t ih =>
    obtain ⟨hq, hs⟩ := h c (by simp)
    rw [List.cons_append, splitCommas, ih fun d hd => h d (by simp [hd])]
    · rfl
    · intro _ _ hc; exact absurd hc hq
    · exact hs

/-- Operands between `", "` split into the operands, each but the first with its blank. -/
theorem splitCommas_intercalate {t : List Char} {ts : List (List Char)} (h : ∀ u ∈ t :: ts, PlainToken u) :
    splitCommas (List.intercalate [',', ' '] (t :: ts)) = t :: ts.map (' ' :: ·) := by
  have clean : ∀ u ∈ t :: ts, ∀ c ∈ u, c ≠ '\'' ∧ c ≠ ',' := fun u hu c hc =>
    ⟨((h u hu).no_mark hc).1, ((h u hu).no_mark hc).2.2⟩
  induction ts generalizing t with
  | nil => simpa using splitCommas_token (clean t (by simp))
  | cons u us ih =>
    rw [show List.intercalate [',', ' '] (t :: u :: us) =
      t ++ ',' :: ' ' :: List.intercalate [',', ' '] (u :: us) by simp [List.intercalate, List.intersperse]]
    rw [splitCommas_token_comma _ (clean t (by simp)), splitCommas, ih (fun v hv => h v (List.mem_cons_of_mem _ hv))
      (fun v hv => clean v (List.mem_cons_of_mem _ hv))]
    · rfl
    · intro _ _ hc; simp at hc
    · decide

/-- Digits are read exactly when each of them is one. -/
theorem digitsValue_isSome (base : Nat) (digit : Char → Option Nat) (l : List Char) (acc : Nat) :
    (digitsValue base digit acc l).isSome = true ↔ ∀ c ∈ l, (digit c).isSome = true := by
  induction l generalizing acc with
  | nil => simp [digitsValue]
  | cons c l ih =>
    simp only [digitsValue]
    cases h : digit c with
    | none => simp [h]
    | some d => simp [h, ih]

/-- A token is read exactly when it is decimal digits, or `0x` and hexadecimal digits (R48). -/
theorem operandOf_token_isSome {t : List Char} (ht : PlainToken t) :
    (operandOf t).isSome = true ↔
      (∀ c ∈ t, (decimalDigit c).isSome = true) ∨
        ∃ h, t = '0' :: 'x' :: h ∧ h ≠ [] ∧ ∀ c ∈ h, (hexDigit c).isSome = true := by
  obtain ⟨a, as, rfl⟩ := List.exists_cons_of_ne_nil ht.1
  rw [operandOf, if_neg (ht.no_mark (List.mem_cons_self ..)).1]
  split
  · next hx =>
    obtain ⟨rfl, hx⟩ := hx
    obtain ⟨h, rfl⟩ : ∃ h, as = 'x' :: h := List.head?_eq_some_iff.1 hx
    have hd : ¬ ∀ c ∈ '0' :: 'x' :: h, (decimalDigit c).isSome = true :=
      fun hall => absurd (hall 'x' (by simp)) (by decide)
    cases h with
    | nil => simpa [hexNumberOf] using hd
    | cons d rest =>
      rw [List.tail_cons, hexNumberOf, Option.isSome_map, digitsValue_isSome, or_iff_right hd]
      exact ⟨fun hall => ⟨_, rfl, by simp, hall⟩, fun ⟨_, e, _, hall⟩ => by
        obtain rfl := (List.cons.inj (List.cons.inj e).2).2
        exact hall⟩
  · next hx =>
    rw [Option.isSome_map, digitsValue_isSome, or_iff_left]
    rintro ⟨h, e, -⟩
    obtain ⟨rfl, rfl⟩ := List.cons.inj e
    exact hx ⟨rfl, rfl⟩

/-- One digit more at the end. -/
theorem digitsValue_append (base : Nat) (digit : Char → Option Nat) (c : Char) (l : List Char) (acc : Nat) :
    digitsValue base digit acc (l ++ [c]) =
      (digitsValue base digit acc l).bind fun a => (digit c).map fun d => base * a + d := by
  induction l generalizing acc with
  | nil => cases h : digit c <;> simp [digitsValue, h]
  | cons b l ih =>
    simp only [List.cons_append, digitsValue]
    cases digit b with
    | none => rfl
    | some d => exact ih _

/-- The digits of a number, each written as `f` has it, are read as the number. -/
theorem digitsValue_toDigits {base : Nat} {digit : Char → Option Nat} (f : Char → Char) (hb : 1 < base)
    (hd : ∀ d < base, digit (f (Nat.digitChar d)) = some d) (v : Nat) :
    digitsValue base digit 0 ((Nat.toDigits base v).map f) = some v := by
  induction v using Nat.strong_induction_on with
  | _ v ih =>
    by_cases hv : v < base
    · rw [Nat.toDigits_of_lt_base hv]
      simp [digitsValue, hd v hv]
    · have hlt : v / base < v := Nat.div_lt_self (by omega) hb
      rw [Nat.toDigits_of_base_le hb (by omega), List.map_append, List.map_singleton, digitsValue_append, ih _ hlt,
        hd _ (Nat.mod_lt _ (by omega))]
      simp [Nat.div_add_mod]

/-- Hexadecimal digits of either letter case make a token. -/
theorem plainToken_of_hexDigits {t : List Char} (hne : t ≠ []) (h : ∀ c ∈ t, (hexDigit c).isSome = true) :
    PlainToken t := by
  have none_of_mark : ∀ c ∈ [' ', '\t', '\r', ';', ',', '\''], hexDigit c = none := by
    simp only [List.forall_mem_cons]
    exact ⟨rfl, rfl, rfl, rfl, rfl, rfl, nofun⟩
  refine ⟨hne, fun c hc hm => ?_⟩
  have := h c hc
  rw [none_of_mark c hm] at this
  cases this

theorem hexDigit_of_decimalDigit {c : Char} (h : (decimalDigit c).isSome = true) : (hexDigit c).isSome = true := by
  unfold decimalDigit at h
  split at h
  · next hc => rw [hexDigit, if_pos hc]; rfl
  · simp at h

/-- A decimal number is read as itself (R48). -/
theorem operandOf_decimal (v : Nat) :
    PlainToken (Nat.toDigits 10 v) ∧ operandOf (Nat.toDigits 10 v) = some (.number v) := by
  have hval := digitsValue_toDigits (base := 10) (digit := decimalDigit) id (by decide) (by decide) v
  rw [List.map_id] at hval
  have hdig := (digitsValue_isSome 10 decimalDigit (Nat.toDigits 10 v) 0).1 (by rw [hval]; rfl)
  have ht := plainToken_of_hexDigits (by simp) fun c hc => hexDigit_of_decimalDigit (hdig c hc)
  refine ⟨ht, ?_⟩
  obtain ⟨a, as, he⟩ := List.exists_cons_of_ne_nil ht.1
  rw [he] at hval hdig ht ⊢
  rw [operandOf, if_neg (ht.no_mark (List.mem_cons_self ..)).1, if_neg, hval]
  · rfl
  · rintro ⟨-, hx⟩
    obtain ⟨h, rfl⟩ := List.head?_eq_some_iff.1 hx
    exact absurd (hdig 'x' (by simp)) (by decide)

/-- `0x` and the hexadecimal digits of a number, in a letter case `f`, are read as the number (R48). -/
theorem operandOf_hexadecimal (f : Char → Char) (hf : ∀ d < 16, hexDigit (f (Nat.digitChar d)) = some d) (v : Nat) :
    PlainToken ('0' :: 'x' :: (Nat.toDigits 16 v).map f) ∧
      operandOf ('0' :: 'x' :: (Nat.toDigits 16 v).map f) = some (.number v) := by
  have hval := digitsValue_toDigits f (by decide) hf v
  have hdig := (digitsValue_isSome 16 hexDigit _ 0).1 (by rw [hval]; rfl)
  have ht := plainToken_of_hexDigits (by simp) hdig
  constructor
  · refine ⟨by simp, fun c hc => ?_⟩
    rcases List.mem_cons.1 hc with rfl | hc
    · decide
    · rcases List.mem_cons.1 hc with rfl | hc
      · decide
      · exact ht.2 c hc
  · obtain ⟨a, as, he⟩ := List.exists_cons_of_ne_nil ht.1
    rw [he] at hval ⊢
    rw [operandOf, if_neg (by decide), if_pos ⟨rfl, rfl⟩, List.tail_cons, hexNumberOf, hval]
    rfl

/-- Operands that are each read are read together. -/
theorem operandsOf_map {α : Type} {f : α → List Char} {g : α → Operand}
    (h : ∀ v, PlainToken (f v) ∧ operandOf (f v) = some (g v)) (vs : List α) :
    operandsOf (vs.map f) = some (vs.map g) := by
  induction vs with
  | nil => rfl
  | cons v vs ih => simp only [List.map_cons, operandsOf, trimBlanks_token (h v).1, (h v).2, ih]

/-- Operands are read exactly when each of them is. -/
theorem operandsOf_isSome {ts : List (List Char)} (h : ∀ t ∈ ts, PlainToken t) :
    (operandsOf ts).isSome = true ↔ ∀ t ∈ ts, (operandOf t).isSome = true := by
  induction ts with
  | nil => simp [operandsOf]
  | cons t ts ih =>
    simp only [operandsOf, trimBlanks_token (h t (by simp)), List.forall_mem_cons,
      ← ih (fun u hu => h u (by simp [hu]))]
    cases operandOf t <;> cases operandsOf ts <;> simp

/-- Blanks before an operand do not change what it is read as. -/
theorem operandsOf_blank (ts : List (List Char)) : operandsOf (ts.map (' ' :: ·)) = operandsOf ts := by
  induction ts with
  | nil => rfl
  | cons t ts ih => simp only [List.map_cons, operandsOf, trimBlanks_cons_blank, ih]

/-- The characters of operands between `", "`, and that there is white space at neither end. -/
theorem intercalate_tokens {t : List Char} {ts : List (List Char)} (h : ∀ u ∈ t :: ts, PlainToken u) :
    (∀ c ∈ List.intercalate [',', ' '] (t :: ts), c ≠ '\'' ∧ c ≠ ';') ∧
      List.intercalate [',', ' '] (t :: ts) ≠ [] ∧
      (∀ c ∈ (List.intercalate [',', ' '] (t :: ts)).head?, isBlankChar c = false) ∧
      ∀ c ∈ (List.intercalate [',', ' '] (t :: ts)).getLast?, isBlankChar c = false := by
  have chars : ∀ u ∈ t :: ts, ∀ c ∈ u, c ≠ '\'' ∧ c ≠ ';' := fun u hu c hc =>
    ⟨((h u hu).no_mark hc).1, ((h u hu).no_mark hc).2.1⟩
  induction ts generalizing t with
  | nil =>
    have ht := h t (by simp)
    simp only [List.intercalate_singleton]
    exact ⟨chars t (by simp), ht.1, fun _ hc => ht.not_blank (List.mem_of_mem_head? hc),
      fun _ hc => ht.not_blank (List.mem_of_mem_getLast? hc)⟩
  | cons u us ih =>
    have ht := h t (by simp)
    obtain ⟨hc, hne, -, hl⟩ := ih (t := u) (fun v hv => h v (List.mem_cons_of_mem _ hv)) (fun v hv => chars v (List.mem_cons_of_mem _ hv))
    rw [show List.intercalate [',', ' '] (t :: u :: us) =
      t ++ [',', ' '] ++ List.intercalate [',', ' '] (u :: us) by simp [List.intercalate, List.intersperse]]
    refine ⟨?_, by simp, ?_, ?_⟩
    · intro c hm
      rcases List.mem_append.1 hm with hm | hm
      · rcases List.mem_append.1 hm with hm | hm
        · exact chars t (by simp) c hm
        · rcases List.mem_cons.1 hm with rfl | hm
          · decide
          · obtain rfl := List.mem_singleton.1 hm
            decide
      · exact hc c hm
    · rw [List.append_assoc]
      exact ht.head_append _
    · rw [List.getLast?_append_of_ne_nil _ hne]
      exact hl

/-- The first word of a line and what follows it. -/
theorem takeWhile_dropWhile_token {name : List Char} (rest : List Char) (h : PlainToken name) :
    (name ++ ' ' :: rest).takeWhile (fun c => !isBlankChar c) = name ∧
      (name ++ ' ' :: rest).dropWhile (fun c => !isBlankChar c) = ' ' :: rest := by
  have hb : ∀ c ∈ name, (!isBlankChar c) = true := fun c hc => by simp [h.not_blank hc]
  rw [List.takeWhile_append_of_pos hb, List.dropWhile_append_of_pos hb, List.takeWhile_cons_of_neg (by decide),
    List.dropWhile_cons_of_neg (by decide)]
  simp

/-- A first word alone is read as its mnemonic with no operands (R48). -/
theorem parseLine_name {name : List Char} (hn : PlainToken name) :
    parseLine name = match mnemonicOf name with | some m => .line ⟨m, []⟩ | none => .error := by
  have hbody : trimBlanks (stripComment name) = name := by
    rw [stripComment_eq_self fun c hc => ⟨(hn.no_mark hc).1, (hn.no_mark hc).2.1⟩, trimBlanks_token hn]
  have htake : name.takeWhile (fun c => !isBlankChar c) = name :=
    List.takeWhile_eq_self_iff.2 fun c hc => by simp [hn.not_blank hc]
  have hdrop : name.dropWhile (fun c => !isBlankChar c) = [] :=
    List.dropWhile_eq_nil_iff.2 fun c hc => by simp [hn.not_blank hc]
  simp only [parseLine, hbody, htake, hdrop]
  rw [if_neg hn.1]
  cases mnemonicOf name <;> rfl

/-- A comment changes nothing of what a line without quotes is read as (R48). -/
theorem parseLine_comment {text : List Char} (comment : List Char) (h : ∀ c ∈ text, c ≠ '\'' ∧ c ≠ ';') :
    parseLine (text ++ ';' :: comment) = parseLine text := by
  simp only [parseLine, stripComment_comment comment h, stripComment_eq_self h]

/-- A text of white space is no command (log entry 11). -/
theorem parseLine_blank {text : List Char} (h : ∀ c ∈ text, isBlankChar c = true) : parseLine text = .empty := by
  have hm : ∀ c ∈ text, c ≠ '\'' ∧ c ≠ ';' := fun c hc =>
    ⟨by rintro rfl; exact absurd (h _ hc) (by decide), by rintro rfl; exact absurd (h _ hc) (by decide)⟩
  simp only [parseLine, stripComment_eq_self hm, trimBlanks_blank h, if_true]

/-- A line of a first word and operands between `", "` is read as its mnemonic and its operands, and is an error when one of
them cannot be read (R48). -/
theorem parseLine_line {name : List Char} {operands : List (List Char)} (hn : PlainToken name)
    (ho : ∀ t ∈ operands, PlainToken t) :
    parseLine (name ++ ' ' :: List.intercalate [',', ' '] operands) =
      match mnemonicOf name, operandsOf operands with
      | some m, some os => .line ⟨m, os⟩
      | _, _ => .error := by
  have hname : ∀ c ∈ name, c ≠ '\'' ∧ c ≠ ';' := fun c hc =>
    ⟨(hn.no_mark hc).1, (hn.no_mark hc).2.1⟩
  cases operands with
  | nil =>
    have hbody : trimBlanks (stripComment (name ++ ' ' :: List.intercalate [',', ' '] [])) = name := by
      rw [stripComment_eq_self, trimBlanks]
      · obtain ⟨a, as, rfl⟩ := List.exists_cons_of_ne_nil hn.1
        have ha : isBlankChar a = false := hn.not_blank (by simp)
        rw [List.cons_append, List.dropWhile_cons_of_neg (by simp [ha])]
        simp only [List.intercalate_nil, List.reverse_cons, List.reverse_append, List.reverse_nil, List.nil_append,
          List.cons_append]
        rw [List.dropWhile_cons_of_pos (by decide)]
        have := trimBlanks_token hn
        rw [trimBlanks, List.dropWhile_cons_of_neg (by simp [ha])] at this
        simpa using this
      · intro c hc
        rcases List.mem_append.1 hc with hc | hc
        · exact hname c hc
        · simp only [List.intercalate_nil, List.mem_singleton] at hc
          subst hc
          decide
    have htake : name.takeWhile (fun c => !isBlankChar c) = name :=
      List.takeWhile_eq_self_iff.2 fun c hc => by simp [hn.not_blank hc]
    have hdrop : name.dropWhile (fun c => !isBlankChar c) = [] :=
      List.dropWhile_eq_nil_iff.2 fun c hc => by simp [hn.not_blank hc]
    simp only [parseLine, hbody, htake, hdrop]
    exact if_neg hn.1
  | cons t ts =>
    obtain ⟨hc, hne, hh, hl⟩ := intercalate_tokens ho
    obtain ⟨htake, hdrop⟩ := takeWhile_dropWhile_token (List.intercalate [',', ' '] (t :: ts)) hn
    have hbody : trimBlanks (stripComment (name ++ ' ' :: List.intercalate [',', ' '] (t :: ts))) =
        name ++ ' ' :: List.intercalate [',', ' '] (t :: ts) := by
      rw [stripComment_eq_self, trimBlanks_eq_self]
      · exact hn.head_append _
      · rw [List.getLast?_append_of_ne_nil _ (by simp)]
        rw [List.getLast?_cons_of_ne_nil hne]
        exact hl
      · intro c hm
        rcases List.mem_append.1 hm with hm | hm
        · exact hname c hm
        · rcases List.mem_cons.1 hm with rfl | hm
          · decide
          · exact hc c hm
    have hops : operandsOf (splitCommas (List.intercalate [',', ' '] (t :: ts))) = operandsOf (t :: ts) := by
      rw [splitCommas_intercalate ho]
      simp only [operandsOf, operandsOf_blank]
    simp only [parseLine, hbody, htake, hdrop, trimBlanks_cons_blank, trimBlanks_eq_self hh hl, hne, hops, if_false]
    exact if_neg (by simp)

end Sys2Proof.Machine
end

