-- ==== Sys2Proof/Laws/State.lean ====
section
/-! SUPPORT. One lemma per field per update of the state, each true by unfolding the update once, so that no later proof
unfolds a record update. -/

namespace Sys2Proof.Machine

@[simp] theorem writeTs_cfg (k : Nat) (v : Byte) (s : State) : (writeTs k v s).cfg = s.cfg := rfl
@[simp] theorem writeTs_ts (k : Nat) (v : Byte) (s : State) : (writeTs k v s).ts = s.ts.set k v := rfl
@[simp] theorem writeTs_ps (k : Nat) (v : Byte) (s : State) : (writeTs k v s).ps = s.ps := rfl
@[simp] theorem writeTs_res (k : Nat) (v : Byte) (s : State) : (writeTs k v s).res = s.res := rfl
@[simp] theorem writeTs_err (k : Nat) (v : Byte) (s : State) : (writeTs k v s).err = s.err := rfl
@[simp] theorem writeTs_ecode (k : Nat) (v : Byte) (s : State) : (writeTs k v s).ecode = s.ecode := rfl
@[simp] theorem writeTs_hrc (k : Nat) (v : Byte) (s : State) : (writeTs k v s).hrc = s.hrc := rfl
@[simp] theorem writeTs_wasReset (k : Nat) (v : Byte) (s : State) : (writeTs k v s).wasReset = s.wasReset := rfl
@[simp] theorem writeTs_entropy (k : Nat) (v : Byte) (s : State) : (writeTs k v s).entropy = s.entropy := rfl
@[simp] theorem writeTs_draws (k : Nat) (v : Byte) (s : State) : (writeTs k v s).draws = s.draws := rfl
@[simp] theorem writeTs_script (k : Nat) (v : Byte) (s : State) : (writeTs k v s).script = s.script := rfl
@[simp] theorem writeTs_reads (k : Nat) (v : Byte) (s : State) : (writeTs k v s).reads = s.reads := rfl
@[simp] theorem writeTs_pos (k : Nat) (v : Byte) (s : State) : (writeTs k v s).pos = s.pos := rfl
@[simp] theorem writeTs_tsSize (k : Nat) (v : Byte) (s : State) : tsSize (writeTs k v s) = tsSize s := rfl
@[simp] theorem writeTs_psSize (k : Nat) (v : Byte) (s : State) : psSize (writeTs k v s) = psSize s := rfl

@[simp] theorem writePs_cfg (j : Nat) (v : Byte) (s : State) : (writePs j v s).cfg = s.cfg := rfl
@[simp] theorem writePs_ts (j : Nat) (v : Byte) (s : State) : (writePs j v s).ts = s.ts := rfl
@[simp] theorem writePs_ps (j : Nat) (v : Byte) (s : State) : (writePs j v s).ps = s.ps.set j v := rfl
@[simp] theorem writePs_res (j : Nat) (v : Byte) (s : State) : (writePs j v s).res = s.res := rfl
@[simp] theorem writePs_err (j : Nat) (v : Byte) (s : State) : (writePs j v s).err = s.err := rfl
@[simp] theorem writePs_ecode (j : Nat) (v : Byte) (s : State) : (writePs j v s).ecode = s.ecode := rfl
@[simp] theorem writePs_hrc (j : Nat) (v : Byte) (s : State) : (writePs j v s).hrc = s.hrc := rfl
@[simp] theorem writePs_wasReset (j : Nat) (v : Byte) (s : State) : (writePs j v s).wasReset = s.wasReset := rfl
@[simp] theorem writePs_entropy (j : Nat) (v : Byte) (s : State) : (writePs j v s).entropy = s.entropy := rfl
@[simp] theorem writePs_draws (j : Nat) (v : Byte) (s : State) : (writePs j v s).draws = s.draws := rfl
@[simp] theorem writePs_script (j : Nat) (v : Byte) (s : State) : (writePs j v s).script = s.script := rfl
@[simp] theorem writePs_reads (j : Nat) (v : Byte) (s : State) : (writePs j v s).reads = s.reads := rfl
@[simp] theorem writePs_pos (j : Nat) (v : Byte) (s : State) : (writePs j v s).pos = s.pos := rfl
@[simp] theorem writePs_tsSize (j : Nat) (v : Byte) (s : State) : tsSize (writePs j v s) = tsSize s := rfl
@[simp] theorem writePs_psSize (j : Nat) (v : Byte) (s : State) : psSize (writePs j v s) = psSize s := rfl

@[simp] theorem fillTs_cfg (l : List Byte) (s : State) : (fillTs l s).cfg = s.cfg := rfl
@[simp] theorem fillTs_ts (l : List Byte) (s : State) : (fillTs l s).ts = l := rfl
@[simp] theorem fillTs_ps (l : List Byte) (s : State) : (fillTs l s).ps = s.ps := rfl
@[simp] theorem fillTs_res (l : List Byte) (s : State) : (fillTs l s).res = s.res := rfl
@[simp] theorem fillTs_err (l : List Byte) (s : State) : (fillTs l s).err = s.err := rfl
@[simp] theorem fillTs_ecode (l : List Byte) (s : State) : (fillTs l s).ecode = s.ecode := rfl
@[simp] theorem fillTs_hrc (l : List Byte) (s : State) : (fillTs l s).hrc = s.hrc := rfl
@[simp] theorem fillTs_wasReset (l : List Byte) (s : State) : (fillTs l s).wasReset = s.wasReset := rfl
@[simp] theorem fillTs_entropy (l : List Byte) (s : State) : (fillTs l s).entropy = s.entropy := rfl
@[simp] theorem fillTs_draws (l : List Byte) (s : State) : (fillTs l s).draws = s.draws := rfl
@[simp] theorem fillTs_script (l : List Byte) (s : State) : (fillTs l s).script = s.script := rfl
@[simp] theorem fillTs_reads (l : List Byte) (s : State) : (fillTs l s).reads = s.reads := rfl
@[simp] theorem fillTs_pos (l : List Byte) (s : State) : (fillTs l s).pos = s.pos := rfl
@[simp] theorem fillTs_tsSize (l : List Byte) (s : State) : tsSize (fillTs l s) = tsSize s := rfl
@[simp] theorem fillTs_psSize (l : List Byte) (s : State) : psSize (fillTs l s) = psSize s := rfl

@[simp] theorem fillPs_cfg (l : List Byte) (s : State) : (fillPs l s).cfg = s.cfg := rfl
@[simp] theorem fillPs_ts (l : List Byte) (s : State) : (fillPs l s).ts = s.ts := rfl
@[simp] theorem fillPs_ps (l : List Byte) (s : State) : (fillPs l s).ps = l := rfl
@[simp] theorem fillPs_res (l : List Byte) (s : State) : (fillPs l s).res = s.res := rfl
@[simp] theorem fillPs_err (l : List Byte) (s : State) : (fillPs l s).err = s.err := rfl
@[simp] theorem fillPs_ecode (l : List Byte) (s : State) : (fillPs l s).ecode = s.ecode := rfl
@[simp] theorem fillPs_hrc (l : List Byte) (s : State) : (fillPs l s).hrc = s.hrc := rfl
@[simp] theorem fillPs_wasReset (l : List Byte) (s : State) : (fillPs l s).wasReset = s.wasReset := rfl
@[simp] theorem fillPs_entropy (l : List Byte) (s : State) : (fillPs l s).entropy = s.entropy := rfl
@[simp] theorem fillPs_draws (l : List Byte) (s : State) : (fillPs l s).draws = s.draws := rfl
@[simp] theorem fillPs_script (l : List Byte) (s : State) : (fillPs l s).script = s.script := rfl
@[simp] theorem fillPs_reads (l : List Byte) (s : State) : (fillPs l s).reads = s.reads := rfl
@[simp] theorem fillPs_pos (l : List Byte) (s : State) : (fillPs l s).pos = s.pos := rfl
@[simp] theorem fillPs_tsSize (l : List Byte) (s : State) : tsSize (fillPs l s) = tsSize s := rfl
@[simp] theorem fillPs_psSize (l : List Byte) (s : State) : psSize (fillPs l s) = psSize s := rfl

@[simp] theorem writeRes_cfg (v : Word) (s : State) : (writeRes v s).cfg = s.cfg := rfl
@[simp] theorem writeRes_ts (v : Word) (s : State) : (writeRes v s).ts = s.ts := rfl
@[simp] theorem writeRes_ps (v : Word) (s : State) : (writeRes v s).ps = s.ps := rfl
@[simp] theorem writeRes_res (v : Word) (s : State) : (writeRes v s).res = v := rfl
@[simp] theorem writeRes_err (v : Word) (s : State) : (writeRes v s).err = s.err := rfl
@[simp] theorem writeRes_ecode (v : Word) (s : State) : (writeRes v s).ecode = s.ecode := rfl
@[simp] theorem writeRes_hrc (v : Word) (s : State) : (writeRes v s).hrc = s.hrc := rfl
@[simp] theorem writeRes_wasReset (v : Word) (s : State) : (writeRes v s).wasReset = s.wasReset := rfl
@[simp] theorem writeRes_entropy (v : Word) (s : State) : (writeRes v s).entropy = s.entropy := rfl
@[simp] theorem writeRes_draws (v : Word) (s : State) : (writeRes v s).draws = s.draws := rfl
@[simp] theorem writeRes_script (v : Word) (s : State) : (writeRes v s).script = s.script := rfl
@[simp] theorem writeRes_reads (v : Word) (s : State) : (writeRes v s).reads = s.reads := rfl
@[simp] theorem writeRes_pos (v : Word) (s : State) : (writeRes v s).pos = s.pos := rfl
@[simp] theorem writeRes_tsSize (v : Word) (s : State) : tsSize (writeRes v s) = tsSize s := rfl
@[simp] theorem writeRes_psSize (v : Word) (s : State) : psSize (writeRes v s) = psSize s := rfl

@[simp] theorem writeHrc_cfg (v : Byte) (s : State) : (writeHrc v s).cfg = s.cfg := rfl
@[simp] theorem writeHrc_ts (v : Byte) (s : State) : (writeHrc v s).ts = s.ts := rfl
@[simp] theorem writeHrc_ps (v : Byte) (s : State) : (writeHrc v s).ps = s.ps := rfl
@[simp] theorem writeHrc_res (v : Byte) (s : State) : (writeHrc v s).res = s.res := rfl
@[simp] theorem writeHrc_err (v : Byte) (s : State) : (writeHrc v s).err = s.err := rfl
@[simp] theorem writeHrc_ecode (v : Byte) (s : State) : (writeHrc v s).ecode = s.ecode := rfl
@[simp] theorem writeHrc_hrc (v : Byte) (s : State) : (writeHrc v s).hrc = v := rfl
@[simp] theorem writeHrc_wasReset (v : Byte) (s : State) : (writeHrc v s).wasReset = s.wasReset := rfl
@[simp] theorem writeHrc_entropy (v : Byte) (s : State) : (writeHrc v s).entropy = s.entropy := rfl
@[simp] theorem writeHrc_draws (v : Byte) (s : State) : (writeHrc v s).draws = s.draws := rfl
@[simp] theorem writeHrc_script (v : Byte) (s : State) : (writeHrc v s).script = s.script := rfl
@[simp] theorem writeHrc_reads (v : Byte) (s : State) : (writeHrc v s).reads = s.reads := rfl
@[simp] theorem writeHrc_pos (v : Byte) (s : State) : (writeHrc v s).pos = s.pos := rfl
@[simp] theorem writeHrc_tsSize (v : Byte) (s : State) : tsSize (writeHrc v s) = tsSize s := rfl
@[simp] theorem writeHrc_psSize (v : Byte) (s : State) : psSize (writeHrc v s) = psSize s := rfl

@[simp] theorem raiseError_cfg (c : ErrorCode) (s : State) : (raiseError c s).cfg = s.cfg := rfl
@[simp] theorem raiseError_ts (c : ErrorCode) (s : State) : (raiseError c s).ts = s.ts := rfl
@[simp] theorem raiseError_ps (c : ErrorCode) (s : State) : (raiseError c s).ps = s.ps := rfl
@[simp] theorem raiseError_res (c : ErrorCode) (s : State) : (raiseError c s).res = s.res := rfl
@[simp] theorem raiseError_err (c : ErrorCode) (s : State) : (raiseError c s).err = true := rfl
@[simp] theorem raiseError_ecode (c : ErrorCode) (s : State) : (raiseError c s).ecode = if s.err then s.ecode else errorNumber c := rfl
@[simp] theorem raiseError_hrc (c : ErrorCode) (s : State) : (raiseError c s).hrc = s.hrc := rfl
@[simp] theorem raiseError_wasReset (c : ErrorCode) (s : State) : (raiseError c s).wasReset = s.wasReset := rfl
@[simp] theorem raiseError_entropy (c : ErrorCode) (s : State) : (raiseError c s).entropy = s.entropy := rfl
@[simp] theorem raiseError_draws (c : ErrorCode) (s : State) : (raiseError c s).draws = s.draws := rfl
@[simp] theorem raiseError_script (c : ErrorCode) (s : State) : (raiseError c s).script = s.script := rfl
@[simp] theorem raiseError_reads (c : ErrorCode) (s : State) : (raiseError c s).reads = s.reads := rfl
@[simp] theorem raiseError_pos (c : ErrorCode) (s : State) : (raiseError c s).pos = s.pos := rfl
@[simp] theorem raiseError_tsSize (c : ErrorCode) (s : State) : tsSize (raiseError c s) = tsSize s := rfl
@[simp] theorem raiseError_psSize (c : ErrorCode) (s : State) : psSize (raiseError c s) = psSize s := rfl

@[simp] theorem applyReset_cfg (s : State) : (applyReset s).cfg = s.cfg := rfl
@[simp] theorem applyReset_ts (s : State) : (applyReset s).ts = List.replicate (tsSize s) 0#8 := rfl
@[simp] theorem applyReset_ps (s : State) : (applyReset s).ps = List.replicate (psSize s) 0#8 := rfl
@[simp] theorem applyReset_res (s : State) : (applyReset s).res = 0#32 := rfl
@[simp] theorem applyReset_err (s : State) : (applyReset s).err = false := rfl
@[simp] theorem applyReset_ecode (s : State) : (applyReset s).ecode = 0#3 := rfl
@[simp] theorem applyReset_hrc (s : State) : (applyReset s).hrc = 0#8 := rfl
@[simp] theorem applyReset_wasReset (s : State) : (applyReset s).wasReset = true := rfl
@[simp] theorem applyReset_entropy (s : State) : (applyReset s).entropy = s.entropy := rfl
@[simp] theorem applyReset_draws (s : State) : (applyReset s).draws = s.draws := rfl
@[simp] theorem applyReset_script (s : State) : (applyReset s).script = s.script := rfl
@[simp] theorem applyReset_reads (s : State) : (applyReset s).reads = s.reads := rfl
@[simp] theorem applyReset_pos (s : State) : (applyReset s).pos = s.pos := rfl
@[simp] theorem applyReset_tsSize (s : State) : tsSize (applyReset s) = tsSize s := rfl
@[simp] theorem applyReset_psSize (s : State) : psSize (applyReset s) = psSize s := rfl

@[simp] theorem takeEntropy_cfg (n : Nat) (s : State) : (takeEntropy n s).cfg = s.cfg := rfl
@[simp] theorem takeEntropy_ts (n : Nat) (s : State) : (takeEntropy n s).ts = s.ts := rfl
@[simp] theorem takeEntropy_ps (n : Nat) (s : State) : (takeEntropy n s).ps = s.ps := rfl
@[simp] theorem takeEntropy_res (n : Nat) (s : State) : (takeEntropy n s).res = s.res := rfl
@[simp] theorem takeEntropy_err (n : Nat) (s : State) : (takeEntropy n s).err = s.err := rfl
@[simp] theorem takeEntropy_ecode (n : Nat) (s : State) : (takeEntropy n s).ecode = s.ecode := rfl
@[simp] theorem takeEntropy_hrc (n : Nat) (s : State) : (takeEntropy n s).hrc = s.hrc := rfl
@[simp] theorem takeEntropy_wasReset (n : Nat) (s : State) : (takeEntropy n s).wasReset = s.wasReset := rfl
@[simp] theorem takeEntropy_entropy (n : Nat) (s : State) : (takeEntropy n s).entropy = s.entropy.drop n := rfl
@[simp] theorem takeEntropy_draws (n : Nat) (s : State) : (takeEntropy n s).draws = s.draws + n := rfl
@[simp] theorem takeEntropy_script (n : Nat) (s : State) : (takeEntropy n s).script = s.script := rfl
@[simp] theorem takeEntropy_reads (n : Nat) (s : State) : (takeEntropy n s).reads = s.reads := rfl
@[simp] theorem takeEntropy_pos (n : Nat) (s : State) : (takeEntropy n s).pos = s.pos := rfl
@[simp] theorem takeEntropy_tsSize (n : Nat) (s : State) : tsSize (takeEntropy n s) = tsSize s := rfl
@[simp] theorem takeEntropy_psSize (n : Nat) (s : State) : psSize (takeEntropy n s) = psSize s := rfl

@[simp] theorem dropAction_cfg (rest : List HostAction) (s : State) : (dropAction rest s).cfg = s.cfg := rfl
@[simp] theorem dropAction_ts (rest : List HostAction) (s : State) : (dropAction rest s).ts = s.ts := rfl
@[simp] theorem dropAction_ps (rest : List HostAction) (s : State) : (dropAction rest s).ps = s.ps := rfl
@[simp] theorem dropAction_res (rest : List HostAction) (s : State) : (dropAction rest s).res = s.res := rfl
@[simp] theorem dropAction_err (rest : List HostAction) (s : State) : (dropAction rest s).err = s.err := rfl
@[simp] theorem dropAction_ecode (rest : List HostAction) (s : State) : (dropAction rest s).ecode = s.ecode := rfl
@[simp] theorem dropAction_hrc (rest : List HostAction) (s : State) : (dropAction rest s).hrc = s.hrc := rfl
@[simp] theorem dropAction_wasReset (rest : List HostAction) (s : State) : (dropAction rest s).wasReset = s.wasReset := rfl
@[simp] theorem dropAction_entropy (rest : List HostAction) (s : State) : (dropAction rest s).entropy = s.entropy := rfl
@[simp] theorem dropAction_draws (rest : List HostAction) (s : State) : (dropAction rest s).draws = s.draws := rfl
@[simp] theorem dropAction_script (rest : List HostAction) (s : State) : (dropAction rest s).script = rest := rfl
@[simp] theorem dropAction_reads (rest : List HostAction) (s : State) : (dropAction rest s).reads = s.reads := rfl
@[simp] theorem dropAction_pos (rest : List HostAction) (s : State) : (dropAction rest s).pos = s.pos := rfl
@[simp] theorem dropAction_tsSize (rest : List HostAction) (s : State) : tsSize (dropAction rest s) = tsSize s := rfl
@[simp] theorem dropAction_psSize (rest : List HostAction) (s : State) : psSize (dropAction rest s) = psSize s := rfl

@[simp] theorem countCommand_cfg (s : State) : (countCommand s).cfg = s.cfg := rfl
@[simp] theorem countCommand_ts (s : State) : (countCommand s).ts = s.ts := rfl
@[simp] theorem countCommand_ps (s : State) : (countCommand s).ps = s.ps := rfl
@[simp] theorem countCommand_res (s : State) : (countCommand s).res = s.res := rfl
@[simp] theorem countCommand_err (s : State) : (countCommand s).err = s.err := rfl
@[simp] theorem countCommand_ecode (s : State) : (countCommand s).ecode = s.ecode := rfl
@[simp] theorem countCommand_hrc (s : State) : (countCommand s).hrc = s.hrc := rfl
@[simp] theorem countCommand_wasReset (s : State) : (countCommand s).wasReset = s.wasReset := rfl
@[simp] theorem countCommand_entropy (s : State) : (countCommand s).entropy = s.entropy := rfl
@[simp] theorem countCommand_draws (s : State) : (countCommand s).draws = s.draws := rfl
@[simp] theorem countCommand_script (s : State) : (countCommand s).script = s.script := rfl
@[simp] theorem countCommand_reads (s : State) : (countCommand s).reads = s.reads := rfl
@[simp] theorem countCommand_pos (s : State) : (countCommand s).pos = s.pos + 1 := rfl
@[simp] theorem countCommand_tsSize (s : State) : tsSize (countCommand s) = tsSize s := rfl
@[simp] theorem countCommand_psSize (s : State) : psSize (countCommand s) = psSize s := rfl

@[simp] theorem recordReading_cfg (r : Reading) (s : State) : (recordReading r s).cfg = s.cfg := rfl
@[simp] theorem recordReading_ts (r : Reading) (s : State) : (recordReading r s).ts = s.ts := rfl
@[simp] theorem recordReading_ps (r : Reading) (s : State) : (recordReading r s).ps = s.ps := rfl
@[simp] theorem recordReading_res (r : Reading) (s : State) : (recordReading r s).res = s.res := rfl
@[simp] theorem recordReading_err (r : Reading) (s : State) : (recordReading r s).err = s.err := rfl
@[simp] theorem recordReading_ecode (r : Reading) (s : State) : (recordReading r s).ecode = s.ecode := rfl
@[simp] theorem recordReading_hrc (r : Reading) (s : State) : (recordReading r s).hrc = s.hrc := rfl
@[simp] theorem recordReading_wasReset (r : Reading) (s : State) : (recordReading r s).wasReset = s.wasReset := rfl
@[simp] theorem recordReading_entropy (r : Reading) (s : State) : (recordReading r s).entropy = s.entropy := rfl
@[simp] theorem recordReading_draws (r : Reading) (s : State) : (recordReading r s).draws = s.draws := rfl
@[simp] theorem recordReading_script (r : Reading) (s : State) : (recordReading r s).script = s.script := rfl
@[simp] theorem recordReading_reads (r : Reading) (s : State) : (recordReading r s).reads = s.reads ++ [r] := rfl
@[simp] theorem recordReading_pos (r : Reading) (s : State) : (recordReading r s).pos = s.pos := rfl
@[simp] theorem recordReading_tsSize (r : Reading) (s : State) : tsSize (recordReading r s) = tsSize s := rfl
@[simp] theorem recordReading_psSize (r : Reading) (s : State) : psSize (recordReading r s) = psSize s := rfl

@[simp] theorem presentWord_cfg (w : Word) (s : State) : (presentWord w s).cfg = s.cfg := rfl
@[simp] theorem presentWord_ts (w : Word) (s : State) : (presentWord w s).ts = s.ts := rfl
@[simp] theorem presentWord_ps (w : Word) (s : State) : (presentWord w s).ps = s.ps := rfl
@[simp] theorem presentWord_res (w : Word) (s : State) : (presentWord w s).res = s.res := rfl
@[simp] theorem presentWord_err (w : Word) (s : State) : (presentWord w s).err = s.err := rfl
@[simp] theorem presentWord_ecode (w : Word) (s : State) : (presentWord w s).ecode = s.ecode := rfl
@[simp] theorem presentWord_hrc (w : Word) (s : State) : (presentWord w s).hrc = s.hrc := rfl
@[simp] theorem presentWord_wasReset (w : Word) (s : State) : (presentWord w s).wasReset = true := rfl
@[simp] theorem presentWord_entropy (w : Word) (s : State) : (presentWord w s).entropy = s.entropy := rfl
@[simp] theorem presentWord_draws (w : Word) (s : State) : (presentWord w s).draws = s.draws := rfl
@[simp] theorem presentWord_script (w : Word) (s : State) : (presentWord w s).script = .command w :: s.script := rfl
@[simp] theorem presentWord_reads (w : Word) (s : State) : (presentWord w s).reads = s.reads := rfl
@[simp] theorem presentWord_pos (w : Word) (s : State) : (presentWord w s).pos = s.pos := rfl
@[simp] theorem presentWord_tsSize (w : Word) (s : State) : tsSize (presentWord w s) = tsSize s := rfl
@[simp] theorem presentWord_psSize (w : Word) (s : State) : psSize (presentWord w s) = psSize s := rfl

end Sys2Proof.Machine
end

