-- ==== Sys2Proof/Laws/Ops.lean ====
section
/-! SUPPORT. One specification lemma per shared operation: element access, the index checks, the layouts of RES, the
flattened sequences, the packer's functions as numbers, and that each operation keeps a legal state legal. -/

namespace Sys2Proof.Machine

/-! ## Element access -/

theorem readTs_eq_of_getElem? {k : Nat} {v : Byte} {s : State} (h : s.ts[k]? = some v) : readTs k s = v := by
  simp [readTs, h]

theorem readPs_eq_of_getElem? {j : Nat} {v : Byte} {s : State} (h : s.ps[j]? = some v) : readPs j s = v := by
  simp [readPs, h]

theorem getElem?_ts_of_lt {k : Nat} {s : State} (h : k < s.ts.length) : s.ts[k]? = some (readTs k s) := by
  simp [readTs, h]

theorem getElem?_ps_of_lt {j : Nat} {s : State} (h : j < s.ps.length) : s.ps[j]? = some (readPs j s) := by
  simp [readPs, h]

theorem readTs_writeTs_same {k : Nat} {v : Byte} {s : State} (h : k < s.ts.length) :
    readTs k (writeTs k v s) = v := by
  simp [readTs, h]

theorem readTs_writeTs_other {k m : Nat} {v : Byte} {s : State} (h : k ≠ m) :
    readTs m (writeTs k v s) = readTs m s := by
  simp [readTs, h]

theorem readPs_writePs_same {j : Nat} {v : Byte} {s : State} (h : j < s.ps.length) :
    readPs j (writePs j v s) = v := by
  simp [readPs, h]

theorem readPs_writePs_other {j m : Nat} {v : Byte} {s : State} (h : j ≠ m) :
    readPs m (writePs j v s) = readPs m s := by
  simp [readPs, h]

/-! ## The index checks -/

theorem ifTsIndex_inside {idx : Byte} {t s : State} (h : idx.toNat < tsSize s) : ifTsIndex idx t s = t := by
  simp [ifTsIndex, h]

theorem ifTsIndex_outside {idx : Byte} {t s : State} (h : tsSize s ≤ idx.toNat) :
    ifTsIndex idx t s = raiseError .indexRange s := by
  simp [ifTsIndex, Nat.not_lt.mpr h]

theorem ifPsIndex_inside {idx : Byte} {t s : State} (h : idx.toNat < psSize s) : ifPsIndex idx t s = t := by
  simp [ifPsIndex, h]

theorem ifPsIndex_outside {idx : Byte} {t s : State} (h : psSize s ≤ idx.toNat) :
    ifPsIndex idx t s = raiseError .indexRange s := by
  simp [ifPsIndex, Nat.not_lt.mpr h]

/-! ## The layouts of RES, as numbers -/

theorem append_toNat {m n : Nat} (a : BitVec m) (b : BitVec n) : (a ++ b).toNat = a.toNat * 2 ^ n + b.toNat := by
  rw [BitVec.toNat_append, Nat.shiftLeft_eq, Nat.mul_comm]
  exact (Nat.two_pow_add_eq_or_of_lt b.isLt a.toNat).symm

@[simp] theorem wrap8_toNat (n : Nat) : (wrap8 n).toNat = n % 256 := by
  simp [wrap8]

theorem elementWord_toNat (v : Byte) : (elementWord v).toNat = v.toNat := by
  simp only [elementWord, BitVec.toNat_setWidth]
  omega

theorem pairWord_toNat (b : Byte × Byte) : (pairWord b).toNat = b.1.toNat + 256 * b.2.toNat := by
  simp only [pairWord, BitVec.toNat_setWidth, append_toNat]
  omega

theorem tripleWord_toNat (t : Byte × Byte × Byte) :
    (tripleWord t).toNat = t.1.toNat + 256 * t.2.1.toNat + 65536 * t.2.2.toNat := by
  simp only [tripleWord, BitVec.toNat_setWidth, append_toNat]
  omega

/-! ## The packer's functions, as numbers -/

theorem encWrap_toNat (t0 t1 t2 : Byte) :
    (encWrap t0 t1 t2).1.toNat = (t0.toNat + 27 * (t2.toNat % 3)) % 256 ∧
      (encWrap t0 t1 t2).2.toNat = (t1.toNat + 27 * (t2.toNat / 3)) % 256 := by
  simp [encWrap]

theorem dec_toNat (b0 b1 : Byte) :
    (dec b0 b1).1.toNat = b0.toNat % 27 ∧ (dec b0 b1).2.1.toNat = b1.toNat % 27 ∧
      (dec b0 b1).2.2.toNat = b0.toNat / 27 + 3 * (b1.toNat / 27) := by
  simp only [dec, wrap8_toNat]
  omega

/-- In wrap mode, and for in-range trytes in either mode, `enc` is the wrap value (R50). -/
theorem enc_eq_encWrap {c : Config} {k : EncCall} {t0 t1 t2 : Byte}
    (h : c.oorMode = .wrap ∨ (t0.toNat ≤ 26 ∧ t1.toNat ≤ 26 ∧ t2.toNat ≤ 26)) :
    enc c k t0 t1 t2 = encWrap t0 t1 t2 := by
  rcases h with h | ⟨h0, h1, h2⟩
  · simp [enc, h]
  · simp [enc, inRange, h0, h1, h2]

/-- In draw mode an input above 26 gives the call's free pair (R50, U2). -/
theorem enc_eq_freePair {c : Config} {k : EncCall} {t0 t1 t2 : Byte} (hm : c.oorMode = .draw)
    (h : ¬ (t0.toNat ≤ 26 ∧ t1.toNat ≤ 26 ∧ t2.toNat ≤ 26)) : enc c k t0 t1 t2 = c.freePair k t0 t1 t2 := by
  rw [enc, if_pos]
  simpa [inRange, and_assoc] using And.intro hm h

/-! ## The flattened sequences -/

@[simp] theorem flattenPairs_length (f : Nat → Byte × Byte) (n : Nat) : (flattenPairs f n).length = 2 * n := by
  simp [flattenPairs, List.length_flatMap, Nat.mul_comm]

@[simp] theorem flattenTriples_length (f : Nat → Byte × Byte × Byte) (n : Nat) :
    (flattenTriples f n).length = 3 * n := by
  simp [flattenTriples, List.length_flatMap, Nat.mul_comm]

theorem flattenPairs_succ (f : Nat → Byte × Byte) (n : Nat) :
    flattenPairs f (n + 1) = flattenPairs f n ++ [(f n).1, (f n).2] := by
  simp [flattenPairs, List.range_succ, List.flatMap_append]

theorem flattenTriples_succ (f : Nat → Byte × Byte × Byte) (n : Nat) :
    flattenTriples f (n + 1) = flattenTriples f n ++ [(f n).1, (f n).2.1, (f n).2.2] := by
  simp [flattenTriples, List.range_succ, List.flatMap_append]

/-- Group `i` of `L` flattened pairs stands at `2i`, `2i+1` (R14). -/
theorem flattenPairs_getElem? (f : Nat → Byte × Byte) {n i : Nat} (h : i < n) :
    (flattenPairs f n)[2 * i]? = some (f i).1 ∧ (flattenPairs f n)[2 * i + 1]? = some (f i).2 := by
  induction n with
  | zero => omega
  | succ n ih =>
    rw [flattenPairs_succ]
    by_cases hi : i < n
    · rw [List.getElem?_append_left (by simp; omega), List.getElem?_append_left (by simp; omega)]
      exact ih hi
    · obtain rfl : i = n := by omega
      rw [List.getElem?_append_right (by simp), List.getElem?_append_right (by simp)]
      simp

/-- Group `i` of `L` flattened triples stands at `3i`, `3i+1`, `3i+2` (R12). -/
theorem flattenTriples_getElem? (f : Nat → Byte × Byte × Byte) {n i : Nat} (h : i < n) :
    (flattenTriples f n)[3 * i]? = some (f i).1 ∧ (flattenTriples f n)[3 * i + 1]? = some (f i).2.1 ∧
      (flattenTriples f n)[3 * i + 2]? = some (f i).2.2 := by
  induction n with
  | zero => omega
  | succ n ih =>
    rw [flattenTriples_succ]
    by_cases hi : i < n
    · rw [List.getElem?_append_left (by simp; omega), List.getElem?_append_left (by simp; omega),
        List.getElem?_append_left (by simp; omega)]
      exact ih hi
    · obtain rfl : i = n := by omega
      rw [List.getElem?_append_right (by simp), List.getElem?_append_right (by simp),
        List.getElem?_append_right (by simp)]
      simp

/-- A group encodes by its own three elements of `TS` and nothing else of the state but the instance (R57). -/
theorem encGroup_congr {s u : State} {i : Nat} (hc : s.cfg = u.cfg) (h0 : readTs (3 * i) s = readTs (3 * i) u)
    (h1 : readTs (3 * i + 1) s = readTs (3 * i + 1) u) (h2 : readTs (3 * i + 2) s = readTs (3 * i + 2) u) :
    encGroup s i = encGroup u i := by
  simp only [encGroup, hc, h0, h1, h2]

/-! ## Entropy -/

theorem drawByte_toNat (e : Fin 27) : (drawByte e).toNat = e.val := by
  simp only [drawByte, BitVec.toNat_ofNat]
  omega

@[simp] theorem entropyFill_length (s : State) : (entropyFill s).length = tsSize s := by
  simp [entropyFill]

theorem entropyFill_getElem? {s : State} {k : Nat} (h : k < tsSize s) :
    (entropyFill s)[k]? = some (drawByte (entropyAt k s)) := by
  simp [entropyFill, h]

/-! ## Legal states -/

/-- A legal state's error record stays legal when an error is taken (R84). -/
theorem legal_raiseError {s : State} (c : ErrorCode) (h : Legal s) : Legal (raiseError c s) := by
  obtain ⟨hc, ht, hp, hh, he, hr⟩ := h
  refine ⟨hc, ht, hp, hh, ?_, ?_⟩
  · cases c <;> simp only [raiseError_ecode] <;> split <;> simp_all [errorNumber]
  · cases c <;> simp only [raiseError_ecode, raiseError_err] <;> split <;> simp_all [errorNumber]

theorem legal_writeTs {s : State} (k : Nat) (v : Byte) (h : Legal s) : Legal (writeTs k v s) := by
  simpa [Legal, ErrorRecordLegal] using h

theorem legal_writePs {s : State} (j : Nat) (v : Byte) (h : Legal s) : Legal (writePs j v s) := by
  simpa [Legal, ErrorRecordLegal] using h

theorem legal_fillTs {s : State} {l : List Byte} (hl : l.length = tsSize s) (h : Legal s) : Legal (fillTs l s) := by
  simpa [Legal, ErrorRecordLegal, hl] using h.imp_right And.right

theorem legal_fillPs {s : State} {l : List Byte} (hl : l.length = psSize s) (h : Legal s) : Legal (fillPs l s) := by
  obtain ⟨hc, ht, -, hh, he⟩ := h
  exact ⟨hc, ht, hl, hh, he⟩

theorem legal_writeRes {s : State} (v : Word) (h : Legal s) : Legal (writeRes v s) := by
  simpa [Legal, ErrorRecordLegal] using h

theorem legal_writeHrc {s : State} {v : Byte} (hv : v.toNat ≤ tsSize s) (h : Legal s) : Legal (writeHrc v s) := by
  obtain ⟨hc, ht, hp, -, he⟩ := h
  exact ⟨hc, ht, hp, hv, he⟩

theorem legal_takeEntropy {s : State} (n : Nat) (h : Legal s) : Legal (takeEntropy n s) := by
  simpa [Legal, ErrorRecordLegal] using h

theorem legal_dropAction {s : State} (rest : List HostAction) (h : Legal s) : Legal (dropAction rest s) := by
  simpa [Legal, ErrorRecordLegal] using h

theorem legal_countCommand {s : State} (h : Legal s) : Legal (countCommand s) := by
  simpa [Legal, ErrorRecordLegal] using h

theorem legal_recordReading {s : State} (r : Reading) (h : Legal s) : Legal (recordReading r s) := by
  simpa [Legal, ErrorRecordLegal] using h

/-- Reset makes any state of a well-formed instance legal (R23, R97). -/
theorem legal_applyReset {s : State} (h : s.cfg.wellFormed = true) : Legal (applyReset s) := by
  simp [Legal, ErrorRecordLegal, h]

end Sys2Proof.Machine
end

