-- ==== Sys2Proof/Laws/Decode.lean ====
section
/-! SUPPORT. The encoding as numbers: the fields of a word, the reserved bits of a format, and the word an instruction
encodes to, so that facts about decoding are facts about division and remainder. -/

namespace Sys2Proof

theorem fieldOp_toNat (w : Word) : (fieldOp w).toNat = w.toNat / 2 ^ 28 := by
  have := w.isLt
  simp only [fieldOp, BitVec.extractLsb'_toNat, Nat.shiftRight_eq_div_pow]
  omega

theorem fieldA_toNat (w : Word) : (fieldA w).toNat = w.toNat % 2 ^ 8 := by
  simp [fieldA]

theorem fieldB_toNat (w : Word) : (fieldB w).toNat = w.toNat / 2 ^ 8 % 2 ^ 8 := by
  simp only [fieldB, BitVec.extractLsb'_toNat, Nat.shiftRight_eq_div_pow]

theorem fieldC_toNat (w : Word) : (fieldC w).toNat = w.toNat / 2 ^ 16 % 2 ^ 8 := by
  simp only [fieldC, BitVec.extractLsb'_toNat, Nat.shiftRight_eq_div_pow]

/-- A slice is 0 exactly when its number is. -/
theorem extract_eq_zero {w : Word} (lo len : Nat) :
    w.extractLsb' lo len = 0#len ↔ w.toNat / 2 ^ lo % 2 ^ len = 0 := by
  rw [BitVec.toNat_eq, BitVec.extractLsb'_toNat, Nat.shiftRight_eq_div_pow]
  simp

/-- R45 as numbers: the reserved bits of a format are 0. -/
theorem reservedZero_iff (f : Format) (w : Word) :
    reservedZero f w = true ↔
      match f with
      | .t => w.toNat / 2 ^ 24 % 2 ^ 4 = 0
      | .p => w.toNat / 2 ^ 16 % 2 ^ 12 = 0
      | .w => w.toNat / 2 ^ 16 % 2 ^ 12 = 0
      | .r => w.toNat / 2 ^ 16 % 2 ^ 12 = 0 ∧ w.toNat % 2 ^ 8 = 0
      | .c => w.toNat / 2 ^ 8 % 2 ^ 20 = 0
      | .n => w.toNat % 2 ^ 28 = 0 := by
  cases f <;> simp only [reservedZero, Bool.and_eq_true, decide_eq_true_eq, extract_eq_zero] <;> simp

/-- The word an instruction encodes to, as a number (R48). -/
theorem encode_toNat (i : Instr) :
    (encode i).toNat =
      match i with
      | .enc3 t0 t1 t2 => 0x10000000 + 65536 * t2.toNat + 256 * t1.toNat + t0.toNat
      | .dec3 b0 b1 => 0x20000000 + 256 * b1.toNat + b0.toNat
      | .seqEnc => 0x30000000
      | .seqDec => 0x40000000
      | .tsWr idx val => 0x50000000 + 256 * idx.toNat + val.toNat
      | .tsRd idx => 0x60000000 + 256 * idx.toNat
      | .psWr idx val => 0x70000000 + 256 * idx.toNat + val.toNat
      | .psRd idx => 0x80000000 + 256 * idx.toNat
      | .hrStart => 0x90000000
      | .hrChar ch => 0xA0000000 + ch.toNat
      | .rand => 0xB0000000 := by
  cases i with
  | enc3 t0 t1 t2 =>
    change (0x1#4 ++ 0#4 ++ t2 ++ t1 ++ t0).toNat = _
    simp only [Machine.append_toNat, BitVec.toNat_ofNat]
    omega
  | dec3 b0 b1 =>
    change (0x2#4 ++ 0#12 ++ b1 ++ b0).toNat = _
    simp only [Machine.append_toNat, BitVec.toNat_ofNat]
    omega
  | tsWr idx val =>
    change (0x5#4 ++ 0#12 ++ idx ++ val).toNat = _
    simp only [Machine.append_toNat, BitVec.toNat_ofNat]
    omega
  | tsRd idx =>
    change (0x6#4 ++ 0#12 ++ idx ++ 0#8).toNat = _
    simp only [Machine.append_toNat, BitVec.toNat_ofNat]
    omega
  | psWr idx val =>
    change (0x7#4 ++ 0#12 ++ idx ++ val).toNat = _
    simp only [Machine.append_toNat, BitVec.toNat_ofNat]
    omega
  | psRd idx =>
    change (0x8#4 ++ 0#12 ++ idx ++ 0#8).toNat = _
    simp only [Machine.append_toNat, BitVec.toNat_ofNat]
    omega
  | hrChar ch =>
    change (0xA#4 ++ 0#20 ++ ch).toNat = _
    simp only [Machine.append_toNat, BitVec.toNat_ofNat]
    omega
  | seqEnc | seqDec | hrStart | rand => rfl

/-- The format of an instruction's opcode (R43). -/
theorem opFormat_opcodeOf (i : Instr) : ∃ f, opFormat (opcodeOf i) = some f := by
  cases i <;> exact ⟨_, rfl⟩

/-- What the decoder answers, by the number of the opcode field (R47). -/
theorem decode_eq (w : Word) :
    decode w =
      match opFormat (w.toNat / 2 ^ 28), commandOf (w.toNat / 2 ^ 28) w with
      | some f, some i => if reservedZero f w then .command i else .reservedField
      | _, _ => .illegalOpcode := by
  rw [← fieldOp_toNat]
  rfl

end Sys2Proof
end

