-- ==== Sys2Proof/Laws/PerInstr.lean ====
section
/-! SUPPORT. Per-instruction laws of the encoding: the word an instruction encodes to is selected by its row of the opcode
map (R43), for every value of its operands. -/

namespace Sys2Proof.Laws.EncodedRow

/-- The encoded word matches the row of the opcode map that has the instruction's opcode (R43). -/
def Statement (i : Instr) : Prop :=
  ∃ row ∈ opcodeMap, row.op = opcodeOf i ∧ encode i &&& row.mask = row.matchVal

theorem enc3 (t0 t1 t2 : Byte) : Statement (.enc3 t0 t1 t2) := by
  refine ⟨⟨0x1, .t, 0x10000000#32, 0xFF000000#32⟩, by decide, rfl, ?_⟩
  change (0x1#4 ++ 0#4 ++ t2 ++ t1 ++ t0) &&& (0xF#4 ++ 0xF#4 ++ 0#8 ++ 0#8 ++ 0#8) =
    (0x1#4 ++ 0#4 ++ 0#8 ++ 0#8 ++ 0#8)
  simp only [BitVec.and_append, BitVec.and_zero]
  rfl

theorem dec3 (b0 b1 : Byte) : Statement (.dec3 b0 b1) := by
  refine ⟨⟨0x2, .p, 0x20000000#32, 0xFFFF0000#32⟩, by decide, rfl, ?_⟩
  change (0x2#4 ++ 0#12 ++ b1 ++ b0) &&& (0xF#4 ++ 0xFFF#12 ++ 0#8 ++ 0#8) = (0x2#4 ++ 0#12 ++ 0#8 ++ 0#8)
  simp only [BitVec.and_append, BitVec.and_zero]
  rfl

theorem seqEnc : Statement .seqEnc :=
  ⟨⟨0x3, .n, 0x30000000#32, 0xFFFFFFFF#32⟩, by decide, rfl, by decide⟩

theorem seqDec : Statement .seqDec :=
  ⟨⟨0x4, .n, 0x40000000#32, 0xFFFFFFFF#32⟩, by decide, rfl, by decide⟩

theorem tsWr (idx val : Byte) : Statement (.tsWr idx val) := by
  refine ⟨⟨0x5, .w, 0x50000000#32, 0xFFFF0000#32⟩, by decide, rfl, ?_⟩
  change (0x5#4 ++ 0#12 ++ idx ++ val) &&& (0xF#4 ++ 0xFFF#12 ++ 0#8 ++ 0#8) = (0x5#4 ++ 0#12 ++ 0#8 ++ 0#8)
  simp only [BitVec.and_append, BitVec.and_zero]
  rfl

theorem tsRd (idx : Byte) : Statement (.tsRd idx) := by
  refine ⟨⟨0x6, .r, 0x60000000#32, 0xFFFF00FF#32⟩, by decide, rfl, ?_⟩
  change (0x6#4 ++ 0#12 ++ idx ++ 0#8) &&& (0xF#4 ++ 0xFFF#12 ++ 0#8 ++ 0xFF#8) = (0x6#4 ++ 0#12 ++ 0#8 ++ 0#8)
  simp only [BitVec.and_append, BitVec.and_zero]
  rfl

theorem psWr (idx val : Byte) : Statement (.psWr idx val) := by
  refine ⟨⟨0x7, .w, 0x70000000#32, 0xFFFF0000#32⟩, by decide, rfl, ?_⟩
  change (0x7#4 ++ 0#12 ++ idx ++ val) &&& (0xF#4 ++ 0xFFF#12 ++ 0#8 ++ 0#8) = (0x7#4 ++ 0#12 ++ 0#8 ++ 0#8)
  simp only [BitVec.and_append, BitVec.and_zero]
  rfl

theorem psRd (idx : Byte) : Statement (.psRd idx) := by
  refine ⟨⟨0x8, .r, 0x80000000#32, 0xFFFF00FF#32⟩, by decide, rfl, ?_⟩
  change (0x8#4 ++ 0#12 ++ idx ++ 0#8) &&& (0xF#4 ++ 0xFFF#12 ++ 0#8 ++ 0xFF#8) = (0x8#4 ++ 0#12 ++ 0#8 ++ 0#8)
  simp only [BitVec.and_append, BitVec.and_zero]
  rfl

theorem hrStart : Statement .hrStart :=
  ⟨⟨0x9, .n, 0x90000000#32, 0xFFFFFFFF#32⟩, by decide, rfl, by decide⟩

theorem hrChar (ch : Byte) : Statement (.hrChar ch) := by
  refine ⟨⟨0xA, .c, 0xA0000000#32, 0xFFFFFF00#32⟩, by decide, rfl, ?_⟩
  change (0xA#4 ++ 0#20 ++ ch) &&& (0xF#4 ++ 0xFFFFF#20 ++ 0#8) = (0xA#4 ++ 0#20 ++ 0#8)
  simp only [BitVec.and_append, BitVec.and_zero]
  rfl

theorem rand : Statement .rand :=
  ⟨⟨0xB, .n, 0xB0000000#32, 0xFFFFFFFF#32⟩, by decide, rfl, by decide⟩

end Sys2Proof.Laws.EncodedRow
end

