-- ==== Sys2Proof/Laws/Step.lean ====
section
/-! SUPPORT. Everything a step can do, said once: with a word next it is that word's command in the state past it, and the
inversion of a step that answers a next state. -/

namespace Sys2Proof.Machine

theorem afterReset_of_reset {o : Host.Outcome State Fault Refusal} {s : State} (h : s.wasReset = true) :
    afterReset o s = o := by
  rw [afterReset, if_pos h]

theorem afterReset_of_not_reset {o : Host.Outcome State Fault Refusal} {s : State} (h : s.wasReset = false) :
    afterReset o s = .fault .beforeFirstReset := by
  rw [afterReset, if_neg (by simp [h])]

/-- With a word next, a step is that word in the state past it. -/
theorem step_of_command {s : State} {w : Word} {rest : List HostAction} (hw : s.wasReset = true)
    (hs : s.script = .command w :: rest) : step s = runWord w (countCommand (dropAction rest s)) := by
  simp only [step, hostStep, hs, hostAct]
  exact afterReset_of_reset hw

/-- Inversion: a step that answers `t` was idle, or was a reset, or (after a reset) was a port read or a word. -/
theorem step_cases {s t : State} (h : step s = .next t) :
    (s.script = [] ∧ t = s) ∨
    (∃ rest, s.script = .reset :: rest ∧ t = applyReset (dropAction rest s)) ∨
    (∃ rest, s.wasReset = true ∧ s.script = .readResult :: rest ∧
      t = recordReading (.result s.res) (dropAction rest s)) ∨
    (∃ rest, s.wasReset = true ∧ s.script = .readStatus :: rest ∧
      t = recordReading (.status (statusWord s)) (dropAction rest s)) ∨
    (∃ w rest, s.wasReset = true ∧ s.script = .command w :: rest ∧
      runWord w (countCommand (dropAction rest s)) = .next t) := by
  unfold step hostStep at h
  split at h
  · next hs => exact .inl ⟨hs, (Host.Outcome.next.inj h).symm⟩
  · next a rest hs =>
    cases a with
    | reset => exact .inr (.inl ⟨rest, hs, (Host.Outcome.next.inj h).symm⟩)
    | readResult =>
      by_cases hw : s.wasReset = true
      · rw [hostAct, afterReset_of_reset (by exact hw)] at h
        exact .inr (.inr (.inl ⟨rest, hw, hs, (Host.Outcome.next.inj h).symm⟩))
      · rw [hostAct, afterReset_of_not_reset (by simpa using hw)] at h
        cases h
    | readStatus =>
      by_cases hw : s.wasReset = true
      · rw [hostAct, afterReset_of_reset (by exact hw)] at h
        exact .inr (.inr (.inr (.inl ⟨rest, hw, hs, (Host.Outcome.next.inj h).symm⟩)))
      · rw [hostAct, afterReset_of_not_reset (by simpa using hw)] at h
        cases h
    | command w =>
      by_cases hw : s.wasReset = true
      · rw [hostAct, afterReset_of_reset (by exact hw)] at h
        exact .inr (.inr (.inr (.inr ⟨w, rest, hw, hs, h⟩)))
      · rw [hostAct, afterReset_of_not_reset (by simpa using hw)] at h
        cases h

/-- A run of `n + 1` steps is one step and a run of `n`. -/
theorem stepMany_succ {n : Nat} {s t : State} (h : step s = .next t) : stepMany (n + 1) s = stepMany n t := by
  rw [stepMany, h]

/-- Two runs in a row are one run of the sum of their lengths. -/
theorem stepMany_add {a : Nat} {s t : State} (b : Nat) (h : stepMany a s = .next t) :
    stepMany (a + b) s = stepMany b t := by
  induction a generalizing s with
  | zero =>
    obtain rfl := Host.Outcome.next.inj h
    simp
  | succ a ih =>
    rw [show a + 1 + b = (a + b) + 1 by omega]
    simp only [stepMany] at h ⊢
    cases hst : step s with
    | next u => rw [hst] at h; exact ih h
    | fault r => rw [hst] at h; cases h
    | refused r => rw [hst] at h; cases h

end Sys2Proof.Machine
end

