-- ==== Sys2Proof/Tests/Slice0.lean ====
section
/-! SUPPORT. The model's own tests. Expected values come from spec/95_test_vectors.md, from the examples in the command
rules, or from the encodings written out bit by bit; `L = 3` unless a test says otherwise. -/

namespace Sys2Proof.Tests
open Sys2Proof.Machine

/-- The next state of an outcome, for comparing fields of it. -/
def after (o : Host.Outcome State Fault Refusal) : Option State :=
  match o with
  | .next t => some t
  | .fault _ => none
  | .refused _ => none

/-- The reset state with the two arrays given. -/
def small (ts ps : List Byte) : State := { State.reset with ts := ts, ps := ps }

/-- The reset state with the host's list given. -/
def hosted (script : List HostAction) : State := { State.reset with script := script }

/-- TS of the SEQ_ENC examples (R57, 95 section 2.3). -/
def exampleTs : List Byte := [1#8, 2#8, 3#8, 26#8, 26#8, 26#8, 0#8, 13#8, 5#8]

/-- PS of the same examples. -/
def examplePs : List Byte := [1#8, 29#8, 80#8, 242#8, 54#8, 40#8]

/-! ## Decoding: words written out bit by bit from R41 and R43 -/

theorem test_decode_enc3 : decode 0b00010000000000110000001000000001#32 = .command (.enc3 1#8 2#8 3#8) := by decide
theorem test_decode_dec3 : decode 0b00100000000000000001110100000001#32 = .command (.dec3 1#8 29#8) := by decide
theorem test_decode_seqEnc : decode 0b00110000000000000000000000000000#32 = .command .seqEnc := by decide
theorem test_decode_seqDec : decode 0b01000000000000000000000000000000#32 = .command .seqDec := by decide
theorem test_decode_tsWr : decode 0b01010000000000000000100000011010#32 = .command (.tsWr 8#8 26#8) := by decide
theorem test_decode_tsRd : decode 0b01100000000000000000100000000000#32 = .command (.tsRd 8#8) := by decide
theorem test_decode_psWr : decode 0b01110000000000000000010111111111#32 = .command (.psWr 5#8 255#8) := by decide
theorem test_decode_psRd : decode 0b10000000000000000000001100000000#32 = .command (.psRd 3#8) := by decide
theorem test_decode_hrStart : decode 0b10010000000000000000000000000000#32 = .command .hrStart := by decide
theorem test_decode_hrChar : decode 0b10100000000000000000000001000001#32 = .command (.hrChar 0x41#8) := by decide
theorem test_decode_rand : decode 0b10110000000000000000000000000000#32 = .command .rand := by decide

/-- 95 section 2.7: illegal before reserved. -/
theorem test_decode_illegal :
    [0x00000000#32, 0xC0000000#32, 0xD0000000#32, 0xE0000000#32, 0xF0000000#32, 0xC0000001#32].map decode =
      List.replicate 6 .illegalOpcode := by decide

/-- 95 sections 2.1 to 2.7: one word with a reserved bit set for every format. -/
theorem test_decode_reserved :
    [0x1F000000#32, 0x20010000#32, 0x50010000#32, 0x60000801#32, 0xA0000141#32, 0x3FFFFFFF#32, 0x90000001#32].map decode =
      List.replicate 7 .reservedField := by decide

theorem test_table_word : decodeTableWord 32 0x50000000 = some (.tsWr 0#8 0#8) := by decide

theorem test_no_two_rows_overlap :
    opcodeMap.Pairwise (fun a b => a.matchVal &&& (a.mask &&& b.mask) ≠ b.matchVal &&& (a.mask &&& b.mask)) := by decide

/-! ## Well-formedness: an ill-formed term for each check -/

theorem test_config_bounds :
    [0, 1, 85, 86].map (fun l => (Config.mk l .wrap).wellFormed) = [false, true, true, false] := by decide
theorem test_line_wrong_count : (SourceLine.mk .enc3 [.number 1, .number 2]).wellFormed = false := by decide
theorem test_line_operand_too_large : (SourceLine.mk .tsWr [.number 0, .number 256]).wellFormed = false := rfl
theorem test_line_quoted_elsewhere : (SourceLine.mk .tsRd [.quoted 0x41]).wellFormed = false := by decide
theorem test_line_quoted_too_large : (SourceLine.mk .hrChar [.quoted 256]).wellFormed = false := by decide
theorem test_line_word_too_large : (SourceLine.mk .word [.number 4294967296]).wellFormed = false := rfl
theorem test_instances : [27, 81, 243, 721, 729].map Config.groupsOfTrits = [some 3, some 9, some 27, some 80, none] := by
  decide

/-! ## The assembler (R48) and a pseudo-operation (R49) -/

/-- `TS_WR 8, 0x1A ; x` is 0x5000081A. -/
theorem test_parse_ts_wr :
    assembleLines [['T', 'S', '_', 'W', 'R', ' ', '8', ',', ' ', '0', 'x', '1', 'A', ' ', ';', ' ', 'x']] =
      some [0x5000081A#32] := by decide

/-- `HR_CHAR 'A'` is 0xA0000041, and a blank or comment line is no command. -/
theorem test_parse_hr_char :
    assembleLines [[';', 'x'], ['H', 'R', '_', 'C', 'H', 'A', 'R', ' ', '\'', 'A', '\'']] = some [0xA0000041#32] := by
  decide

theorem test_expand_string :
    expandPseudo 3 (.fromHumanReadable [0x41#8]) = some [.command 0x90000000#32, .command 0xA0000041#32] := by decide

/-! ## The commands -/

/-- 95 section 2.1: wrap (309 mod 256, 2295 mod 256) and the largest in-range triple. -/
theorem test_enc3_wraps :
    [encWrap 255#8 0#8 2#8, encWrap 0#8 0#8 255#8, encWrap 26#8 26#8 26#8, encWrap 100#8 200#8 50#8] =
      [(53#8, 0#8), (0#8, 247#8), (80#8, 242#8), (154#8, 120#8)] := by decide
theorem test_enc3_result : (after (exec (.enc3 5#8 7#8 13#8) State.reset)).map State.res = some 0x00007320#32 := by decide

/-- 95 section 2.2 and R56: non-nominal pairs. -/
theorem test_dec3_non_nominal :
    [dec 81#8 0#8, dec 0#8 27#8, dec 128#8 64#8, dec 255#8 255#8] =
      [(0#8, 0#8, 3#8), (0#8, 0#8, 3#8), (20#8, 10#8, 10#8), (12#8, 12#8, 36#8)] := by decide
theorem test_dec3_result : (after (exec (.dec3 255#8 255#8) State.reset)).map State.res = some 0x00240C0C#32 := by decide

/-- 95 section 2.3. -/
theorem test_seqEnc : (after (exec .seqEnc (small exampleTs examplePs))).map State.ps = some examplePs := by decide
theorem test_seqEnc_wraps :
    (after (exec .seqEnc (small [255#8, 0#8, 2#8, 0#8, 0#8, 255#8, 27#8, 0#8, 0#8] examplePs))).map State.ps =
      some [53#8, 0#8, 0#8, 247#8, 27#8, 0#8] := by decide

/-- R57: SEQ_ENC twice in a row gives the same PS both times, in draw mode too and with an input above 26. -/
theorem test_seqEnc_twice_in_draw_mode :
    ∃ t, exec .seqEnc { small (List.replicate 9 27#8) examplePs with cfg := ⟨3, .draw⟩ } = .next t ∧
      exec .seqEnc t = .next t := ⟨_, rfl, rfl⟩
theorem test_seqDec :
    (after (exec .seqDec (small exampleTs [81#8, 0#8, 0#8, 27#8, 255#8, 255#8]))).map State.ts =
      some [0#8, 0#8, 3#8, 0#8, 0#8, 3#8, 12#8, 12#8, 36#8] := by decide

/-- 95 section 2.5: the last valid and the first invalid index. -/
theorem test_tsWr_last : (after (exec (.tsWr 8#8 26#8) State.reset)).map (readTs 8) = some 26#8 := by decide
theorem test_tsWr_outside :
    (after (exec (.tsWr 9#8 7#8) State.reset)).map (fun t => (t.ts, statusWord t)) =
      some (List.replicate 9 0#8, 0x00030007#32) := by decide
theorem test_tsRd : (after (exec (.tsRd 3#8) (small exampleTs examplePs))).map State.res = some 0x1A#32 := by decide
theorem test_tsRd_outside : (after (exec (.tsRd 9#8) State.reset)).map State.ecode = some 3#3 := by decide
theorem test_psWr_last : (after (exec (.psWr 5#8 255#8) State.reset)).map (readPs 5) = some 255#8 := by decide
theorem test_psWr_outside : (after (exec (.psWr 6#8 0#8) State.reset)).map State.ecode = some 3#3 := by decide
theorem test_psRd : (after (exec (.psRd 3#8) (small exampleTs examplePs))).map State.res = some 0xF2#32 := by decide
theorem test_psRd_outside : (after (exec (.psRd 6#8) State.reset)).map State.ecode = some 3#3 := by decide

/-- 95 section 2.4: the character map. -/
theorem test_hr :
    [0x39#8, 0x40#8, 0x41#8, 0x5A#8, 0x5B#8, 0x61#8, 0x30#8, 0x38#8, 0x20#8, 0x00#8, 0xFF#8].map hr =
      [0#8, 0#8, 1#8, 26#8, 27#8, 33#8, 240#8, 248#8, 224#8, 192#8, 191#8] := by decide
theorem test_hrStart :
    (after (exec .hrStart { small exampleTs examplePs with hrc := 7#8 })).map (fun t => (t.ts, t.hrc, t.ps)) =
      some (List.replicate 9 0#8, 0#8, examplePs) := by decide
theorem test_hrChar_last :
    (after (exec (.hrChar 0x5A#8) { State.reset with hrc := 8#8 })).map (fun t => (readTs 8 t, t.hrc)) =
      some (26#8, 9#8) := by decide
theorem test_hrChar_full :
    after (exec (.hrChar 0x41#8) { State.reset with hrc := 9#8 }) = some { State.reset with hrc := 9#8 } := by decide

/-- 95 section 2.6: the draws lined up on the entropy input. -/
theorem test_rand :
    (after (exec .rand { State.reset with entropy := [5, 0, 26, 13, 13, 13, 1, 2, 3, 7] })).map
      (fun t => (t.ts, t.entropy)) =
      some ([5#8, 0#8, 26#8, 13#8, 13#8, 13#8, 1#8, 2#8, 3#8], [7]) := by decide

/-- With nothing lined up RAND completes too, on free values. -/
theorem test_rand_completes :
    (after (step (State.reset.withFetchWord 32 0xB0000000))).map (fun t => t.ts.length) = some 9 := by decide

/-! ## STATUS and the step -/

/-- 95 section 2.8. -/
theorem test_status :
    [statusWord State.reset, statusWord (State.resetOf ⟨27, .wrap⟩), statusWord (State.resetOf ⟨80, .wrap⟩),
      statusWord { State.reset with hrc := 9#8 }, statusWord { State.reset with err := true, ecode := 1#3 }] =
      [0x00030000#32, 0x001B0000#32, 0x00500000#32, 0x00030900#32, 0x00030003#32] := by decide
theorem test_first_error_is_kept :
    (after (runWord 0x00000000#32 { State.reset with err := true, ecode := 3#3 })).map State.ecode = some 3#3 := by decide
theorem test_reserved_before_index :
    (after (step (State.reset.withFetchWord 32 0x60000901))).map State.ecode = some 2#3 := by decide
theorem test_step_runs_the_word :
    (after (step (State.reset.withFetchWord 32 0x10030201))).map (fun t => (t.res, t.pos, t.script)) =
      some (0x00001D01#32, 1, []) := by decide
theorem test_large_instance_index :
    ((after (exec (.tsWr 239#8 1#8) (State.resetOf ⟨80, .wrap⟩))).map State.err,
      (after (exec (.tsWr 240#8 1#8) (State.resetOf ⟨80, .wrap⟩))).map State.err) = (some false, some true) := by decide

/-! ## Witnesses: the hypotheses of each statement are met together, at the boundaries of their clauses -/

theorem witness_EncodeOfDecode : decode 0x5000081A#32 = .command (.tsWr 8#8 26#8) := by decide
theorem witness_MatchAndMaskSelectTheCommand :
    (⟨0xB, .n, 0xB0000000#32, 0xFFFFFFFF#32⟩ : OpRow) ∈ opcodeMap := by decide
theorem witness_IllegalOpcodeRaisesErrorOne :
    [0x0#32, 0x0FFFFFFF#32, 0xC0000000#32, 0xFFFFFFFF#32].map (fun w => w.toNat / 2 ^ 28) = [0x0, 0x0, 0xC, 0xF] := by decide
theorem witness_ReservedBitsRaiseErrorTwo :
    (⟨0x6, .r, 0x60000000#32, 0xFFFF00FF#32⟩ : OpRow) ∈ opcodeMap ∧
      [0x60000001#32, 0x60010000#32, 0x6000FF00#32].map (fun w => w.toNat / 2 ^ 28) = [6, 6, 6] := by decide
theorem witness_FirstErrorInDecodeOrder :
    State.reset.err = false ∧ State.reset.ecode = 0#3 ∧
      [0xC0000001#32, 0x60000901#32, 0x60000900#32, 0x60000800#32, 0x80000600#32, 0x80000500#32].map
        (fun w => (after (runWord w State.reset)).map State.ecode) =
        [some 1#3, some 2#3, some 3#3, some 0#3, some 3#3, some 0#3] := by decide
theorem witness_IndexOutOfRangeRaisesErrorThree :
    3 * State.reset.cfg.groups ≤ (9#8).toNat ∧ 2 * State.reset.cfg.groups ≤ (6#8).toNat := by decide
theorem witness_ErrorRecordIsStickyUntilReset :
    let s := { hosted [.command 0#32] with err := true, ecode := 3#3 }
    (after (step s)).isSome = true ∧ s.err = true ∧ s.script.head? ≠ some .reset := by decide
theorem witness_EncTripleCommand :
    State.reset.cfg.oorMode = .wrap ∧ (0x101A1A1A#32).toNat = 0x10000000 + 26 + 256 * 26 + 65536 * 26 ∧
      (0x11000000#32).toNat / 2 ^ 28 = 1 ∧ (0x11000000#32).toNat / 2 ^ 24 % 2 ^ 4 ≠ 0 := by decide
theorem witness_EncTripleCommand_draw :
    (Config.mk 3 .draw).oorMode ≠ .wrap ∧ (26#8).toNat ≤ 26 ∧ ¬ (27#8).toNat ≤ 26 := by decide
theorem witness_EncTripleCommand_twoStates :
    State.reset.cfg = (small exampleTs examplePs).cfg ∧ (after (exec (.enc3 27#8 0#8 0#8) State.reset)).isSome = true ∧
      (after (exec (.enc3 27#8 0#8 0#8) (small exampleTs examplePs))).isSome = true := by decide
theorem witness_DecPairCommand :
    (0x2000FFFF#32).toNat = 0x20000000 + 255 + 256 * 255 ∧
      (0x20010000#32).toNat / 2 ^ 28 = 2 ∧ (0x20010000#32).toNat / 2 ^ 16 % 2 ^ 12 ≠ 0 := by decide
theorem witness_EncThenDecRestoresTheTriple : (26#8).toNat ≤ 26 ∧ (0#8).toNat ≤ 26 := by decide
theorem witness_EncIsABijectionOntoTheNominalRectangle :
    (26#8).toNat ≤ 26 ∧ (80#8).toNat ≤ 80 ∧ (242#8).toNat ≤ 242 := by decide
theorem witness_DecOutsideTheNominalRectangle :
    builtInstance.oorMode = .wrap ∧ (80#8).toNat ≤ 80 ∧ ¬ (81#8).toNat ≤ 80 := by decide
theorem witness_Legal :
    Legal State.reset ∧ Legal (small exampleTs examplePs) ∧ Legal { State.reset with hrc := 9#8 } := by decide
theorem witness_SequenceEncodeCommand_groups :
    let s := small exampleTs examplePs
    let u := small (1#8 :: 2#8 :: 3#8 :: List.replicate 6 255#8) []
    s.cfg = u.cfg ∧ (after (exec .seqEnc s)).isSome = true ∧ (after (exec .seqEnc u)).isSome = true ∧
      s.ts[0]? = u.ts[0]? ∧ s.ts[1]? = u.ts[1]? ∧ s.ts[2]? = u.ts[2]? ∧ s.ts[3]? ≠ u.ts[3]? := by decide
theorem witness_SequenceEncodeCommand :
    Legal (small exampleTs examplePs) ∧ (0x30000001#32).toNat / 2 ^ 28 = 3 ∧ (0x30000001#32).toNat % 2 ^ 28 ≠ 0 := by decide
theorem witness_SequenceDecodeCommand :
    Legal (small exampleTs examplePs) ∧ (0x48000000#32).toNat / 2 ^ 28 = 4 ∧ (0x48000000#32).toNat % 2 ^ 28 ≠ 0 := by decide
theorem witness_SequenceRoundTrip :
    ∃ acts, expandPseudo 3 (.fromTryteArray exampleTs) = some acts ∧
      let s := hosted (acts ++ [present .seqEnc, present .seqDec] ++ [.readStatus])
      Legal s ∧ s.wasReset = true ∧ ∀ v ∈ exampleTs, v.toNat ≤ 26 :=
  ⟨_, rfl, by decide⟩
theorem witness_AllZeroSequenceEncodesToAllZero : Legal State.reset ∧ ∀ v ∈ State.reset.ts, v = 0#8 := by decide
theorem witness_DecodeThenEncodeKeepsNominalPairs :
    let s := small exampleTs [80#8, 242#8, 81#8, 0#8, 0#8, 243#8]
    Legal s ∧ (readPs 0 s).toNat ≤ 80 ∧ (readPs 1 s).toNat ≤ 242 ∧ ¬ PsNominal s ∧
      PsNominal (small exampleTs examplePs) := by decide
theorem witness_CharacterMap :
    0x41 ≤ (0x41#8).toNat ∧ (0x41#8).toNat ≤ 0x5A ∧ 0x41 ≤ (0x5A#8).toNat ∧ (0x5A#8).toNat ≤ 0x5A := by decide
theorem witness_StringStartCommand : (0x90000001#32).toNat / 2 ^ 28 = 9 ∧ (0x90000001#32).toNat % 2 ^ 28 ≠ 0 := by decide
theorem witness_StringCharacterCommand :
    Legal { State.reset with hrc := 8#8 } ∧ (8#8).toNat < 3 * State.reset.cfg.groups ∧
      Legal { State.reset with hrc := 9#8 } ∧ (9#8).toNat = 3 * State.reset.cfg.groups ∧
      (0xA00000FF#32).toNat = 0xA0000000 + (255#8).toNat ∧
      (0xA0000141#32).toNat / 2 ^ 28 = 10 ∧ (0xA0000141#32).toNat / 2 ^ 8 % 2 ^ 20 ≠ 0 := by decide
theorem witness_StringIsPaddedAndTruncated :
    (∃ acts, expandPseudo 3 (.fromHumanReadable [0x41#8, 0x39#8]) = some acts ∧
      Legal (hosted acts) ∧ (hosted acts).wasReset = true) ∧
    (∃ acts, expandPseudo 3 (.fromHumanReadable (List.replicate 12 0x42#8)) = some acts ∧
      Legal (hosted acts) ∧ (hosted acts).wasReset = true) :=
  ⟨⟨_, rfl, by decide⟩, ⟨_, rfl, by decide⟩⟩
theorem witness_TryteWriteCommand :
    Legal State.reset ∧ (8#8).toNat < 3 * State.reset.cfg.groups ∧ 3 * State.reset.cfg.groups ≤ (9#8).toNat ∧
      (0x500008FF#32).toNat = 0x50000000 + 256 * (8#8).toNat + (255#8).toNat ∧
      (0x50010000#32).toNat / 2 ^ 28 = 5 ∧ (0x50010000#32).toNat / 2 ^ 16 % 2 ^ 12 ≠ 0 := by decide
theorem witness_TryteReadCommand :
    Legal State.reset ∧ (8#8).toNat < 3 * State.reset.cfg.groups ∧ 3 * State.reset.cfg.groups ≤ (9#8).toNat ∧
      (0x60000800#32).toNat = 0x60000000 + 256 * (8#8).toNat ∧
      (0x60000001#32).toNat / 2 ^ 28 = 6 ∧ (0x60000001#32).toNat % 2 ^ 8 ≠ 0 ∧
      (0x60010000#32).toNat / 2 ^ 28 = 6 ∧ (0x60010000#32).toNat / 2 ^ 16 % 2 ^ 12 ≠ 0 := by decide
theorem witness_PackedWriteCommand :
    Legal State.reset ∧ (5#8).toNat < 2 * State.reset.cfg.groups ∧ 2 * State.reset.cfg.groups ≤ (6#8).toNat ∧
      (0x700005FF#32).toNat = 0x70000000 + 256 * (5#8).toNat + (255#8).toNat ∧
      (0x70010000#32).toNat / 2 ^ 28 = 7 ∧ (0x70010000#32).toNat / 2 ^ 16 % 2 ^ 12 ≠ 0 := by decide
theorem witness_PackedReadCommand :
    Legal State.reset ∧ (5#8).toNat < 2 * State.reset.cfg.groups ∧ 2 * State.reset.cfg.groups ≤ (6#8).toNat ∧
      (0x80000500#32).toNat = 0x80000000 + 256 * (5#8).toNat ∧
      (0x80000001#32).toNat / 2 ^ 28 = 8 ∧ (0x80000001#32).toNat % 2 ^ 8 ≠ 0 ∧
      (0x80010000#32).toNat / 2 ^ 28 = 8 ∧ (0x80010000#32).toNat / 2 ^ 16 % 2 ^ 12 ≠ 0 := by decide
theorem witness_FromTryteArrayStoresTheArray :
    ∃ acts, expandPseudo 3 (.fromTryteArray (List.replicate 9 255#8)) = some acts ∧
      Legal (hosted acts) ∧ (hosted acts).wasReset = true :=
  ⟨_, rfl, by decide⟩
theorem witness_AsTryteArrayReadsTheArray :
    ∃ acts writes, expandPseudo 3 .asTryteArray = some acts ∧
      expandPseudo 3 (.fromTryteArray State.reset.ts) = some writes ∧ Legal (hosted (acts ++ (writes ++ []))) ∧
      (hosted (acts ++ (writes ++ []))).wasReset = true :=
  ⟨_, _, rfl, rfl, by decide⟩
theorem witness_PackedInterchange :
    (∃ load read, expandPseudo 3 (.loadPacked examplePs) = some load ∧ expandPseudo 3 .readPacked = some read ∧
      Legal (hosted (load ++ read)) ∧ (hosted (load ++ read)).wasReset = true ∧
      Legal (hosted read) ∧ (hosted read).wasReset = true) ∧
    TsInRange (small exampleTs examplePs) :=
  ⟨⟨_, _, rfl, rfl, by decide⟩, by decide⟩
theorem witness_RandomFillCommand : (0xB0000100#32).toNat / 2 ^ 28 = 11 ∧ (0xB0000100#32).toNat % 2 ^ 28 ≠ 0 := by decide
theorem witness_RandomSequenceRoundTrip : Legal (small exampleTs examplePs) := by decide
theorem witness_StepKeepsInvariant :
    let s := hosted [.command 0x5000081A#32]
    Inv s ∧ (after (step s)).isSome = true ∧ Inv { s with wasReset := false, ts := [] } := by decide
theorem witness_ResetValues :
    (Config.mk 1 .wrap).wellFormed = true ∧ (Config.mk 85 .draw).wellFormed = true := by decide
theorem witness_InvariantAtReset : (Config.mk 80 .wrap).wellFormed = true := by decide
theorem witness_ResetInputClearsEveryRegister :
    { hosted [.reset] with wasReset := false, ts := [] }.script = .reset :: [] := by decide
theorem witness_LengthsNeverChange :
    let s := hosted [.command 0x30000000#32]
    Inv s ∧ (after (step s)).isSome = true ∧ s.wasReset = true := by decide
theorem witness_TryteSequenceReadersAndWriters :
    (after (exec (.tsWr 8#8 1#8) State.reset)).isSome = true ∧ Instr.tsWr 8#8 1#8 ≠ .seqEnc ∧
      ∀ idx, Instr.tsWr 8#8 1#8 ≠ .tsRd idx := ⟨by decide, by decide, fun _ h => by cases h⟩
theorem witness_TryteSequenceReadersAndWriters_boundary :
    (8#8).toNat < 3 * State.reset.cfg.groups ∧ ¬ (9#8).toNat < 3 * State.reset.cfg.groups ∧
      exampleTs.length = State.reset.ts.length ∧ exampleTs ≠ State.reset.ts ∧
      (after (exec (.tsRd 6#8) State.reset)).isSome = true ∧ exampleTs[6]? = State.reset.ts[6]? := by decide
theorem witness_PackedSequenceReadersAndWriters :
    (after (exec (.psWr 5#8 1#8) State.reset)).isSome = true ∧ Instr.psWr 5#8 1#8 ≠ .seqDec ∧
      ∀ idx, Instr.psWr 5#8 1#8 ≠ .psRd idx := ⟨by decide, by decide, fun _ h => by cases h⟩
theorem witness_PackedSequenceReadersAndWriters_boundary :
    (5#8).toNat < 2 * State.reset.cfg.groups ∧ ¬ (6#8).toNat < 2 * State.reset.cfg.groups ∧
      examplePs.length = State.reset.ps.length ∧ examplePs ≠ State.reset.ps ∧
      (after (exec (.psRd 2#8) State.reset)).isSome = true ∧ (0#8 :: 0#8 :: 0#8 :: examplePs)[2]? = State.reset.ps[2]? := by
  decide
theorem witness_ResultAndCursorWriters :
    (after (exec (.dec3 1#8 29#8) State.reset)).map (fun t => decide (t.res ≠ State.reset.res)) = some true ∧
      (after (exec (.hrChar 0x41#8) State.reset)).map (fun t => decide (t.hrc ≠ State.reset.hrc)) = some true ∧
      State.reset.err = false ∧ (after (exec (.tsRd 9#8) State.reset)).map State.err = some true := by decide
theorem witness_EveryCommandButRandIsDeterministic :
    Instr.seqEnc ≠ .rand ∧ (after (exec .seqEnc State.reset)).isSome = true := by decide
theorem witness_StepRunsTheDecodedCommand :
    let s := hosted [.command 0x30000000#32, .readResult]
    s.wasReset = true ∧ s.script = .command 0x30000000#32 :: [.readResult] ∧ decode 0x30000000#32 = .command .seqEnc := by
  decide
theorem witness_StepOnAWordThatSpellsNoCommand :
    let s := hosted [.command 0#32]
    s.wasReset = true ∧ s.script = .command 0#32 :: [] ∧ decode 0#32 = .illegalOpcode ∧
      decode 0x30000001#32 = .reservedField := by decide
theorem witness_StatusRegister :
    Legal (hosted [.readStatus]) ∧ (hosted [.readStatus]).script = .readStatus :: [] ∧
      Legal { State.reset with hrc := 9#8, err := true, ecode := 3#3 } := by decide
theorem witness_ResultPortRead :
    (hosted [.readResult]).wasReset = true ∧ (hosted [.readResult]).script = .readResult :: [] := by decide
theorem witness_IdleHoldsTheState : State.reset.script = [] := by decide
theorem witness_AssemblerForms :
    (255 : Nat) < 256 ∧ (SourceLine.mk .enc3 [.number 255, .number 255, .number 255]).wellFormed = true := by decide
theorem witness_AssemblerText :
    (∀ t ∈ [['N', 'O', 'P'], ['2', '5', '5'], ['0', 'x', 'f', 'F'], ['2', 'x']],
      t ≠ [] ∧ ∀ c ∈ t, c ∉ [' ', '\t', '\r', ';', ',', '\'']) ∧
    (∀ f ∈ ["ENC3", "TS_WR", "RAND", ".word"], f.toList ≠ ['N', 'O', 'P']) := by
  simp
theorem witness_AssemblerCommentsAndBlankLines :
    '\'' ∉ ['R', 'A', 'N', 'D', ' '] ∧ ';' ∉ ['R', 'A', 'N', 'D', ' '] ∧
      (∀ c ∈ [' ', '\t', '\r'], c ∈ [' ', '\t', '\r']) ∧ parseLine [' ', ';', 'x'] = .empty ∧
      parseLine ['R', 'A', 'N', 'D'] = .line ⟨.rand, []⟩ ∧ assembleLine ⟨.rand, []⟩ = some 0xB0000000#32 ∧
      assembleLines [[]] = some [] :=
  ⟨by simp, by simp, fun _ h => h, rfl, rfl, rfl, rfl⟩
theorem witness_StopsOnlyBeforeTheFirstReset :
    let s := { hosted [.readResult] with wasReset := false }
    s.wasReset = false ∧ s.script ≠ [] ∧ s.script.head? ≠ some .reset := by decide

end Sys2Proof.Tests
end

section
/-! PROOF. The invariant of 00_scope.md section 3: every command, every word on the command port and every step keep a legal
state legal, one operation lemma per command. -/

namespace Sys2Proof.Machine

/-- A legal state meets the invariant, whether or not it records a reset. -/
theorem inv_of_legal {s : State} (h : Legal s) : Inv s := ⟨h.1, fun _ => h⟩

theorem legal_ifTsIndex {s t : State} (idx : Byte) (ht : Legal t) (hs : Legal s) : Legal (ifTsIndex idx t s) := by
  rcases Nat.lt_or_ge idx.toNat (tsSize s) with hi | hi
  · rwa [ifTsIndex_inside hi]
  · rw [ifTsIndex_outside hi]
    exact legal_raiseError _ hs

theorem legal_ifPsIndex {s t : State} (idx : Byte) (ht : Legal t) (hs : Legal s) : Legal (ifPsIndex idx t s) := by
  rcases Nat.lt_or_ge idx.toNat (psSize s) with hi | hi
  · rwa [ifPsIndex_inside hi]
  · rw [ifPsIndex_outside hi]
    exact legal_raiseError _ hs

/-- HR_CHAR advances the cursor only from below `3L`, so it stays at most `3L` (R22, R65). -/
theorem execHrChar_keeps_legal {s : State} (ch : Byte) (h : Legal s) :
    ∃ t, execHrChar ch s = .next t ∧ Legal t := by
  refine ⟨_, rfl, ?_⟩
  split
  · next hlt =>
    have hcur : (s.hrc + 1#8).toNat ≤ tsSize s := by
      rw [BitVec.toNat_add]
      exact (Nat.mod_le ..).trans hlt
    exact legal_writeHrc hcur (legal_writeTs _ _ h)
  · exact h

/-- Every command completes in a legal state, and in a legal state (R20, R22, R60). -/
theorem exec_keeps_legal {s : State} (i : Instr) (h : Legal s) : ∃ t, exec i s = .next t ∧ Legal t := by
  cases i with
  | enc3 t0 t1 t2 => exact ⟨_, rfl, legal_writeRes _ h⟩
  | dec3 b0 b1 => exact ⟨_, rfl, legal_writeRes _ h⟩
  | seqEnc => exact ⟨_, rfl, legal_fillPs (flattenPairs_length ..) h⟩
  | seqDec => exact ⟨_, rfl, legal_fillTs (flattenTriples_length ..) h⟩
  | tsWr idx val => exact ⟨_, rfl, legal_ifTsIndex idx (legal_writeTs _ _ h) h⟩
  | tsRd idx => exact ⟨_, rfl, legal_ifTsIndex idx (legal_writeRes _ h) h⟩
  | psWr idx val => exact ⟨_, rfl, legal_ifPsIndex idx (legal_writePs _ _ h) h⟩
  | psRd idx => exact ⟨_, rfl, legal_ifPsIndex idx (legal_writeRes _ h) h⟩
  | hrStart => exact ⟨_, rfl, legal_writeHrc (Nat.zero_le _) (legal_fillTs List.length_replicate h)⟩
  | hrChar ch => exact execHrChar_keeps_legal ch h
  | rand => exact ⟨_, rfl, legal_takeEntropy _ (legal_fillTs (entropyFill_length s) h)⟩

/-- So does every word on the command port, one that spells no command by taking its error (R84). -/
theorem runWord_keeps_legal {s : State} (w : Word) (h : Legal s) : ∃ t, runWord w s = .next t ∧ Legal t := by
  unfold runWord
  cases decode w with
  | command i => exact exec_keeps_legal i h
  | illegalOpcode => exact ⟨_, rfl, legal_raiseError _ h⟩
  | reservedField => exact ⟨_, rfl, legal_raiseError _ h⟩

/-- Settles O34, by what a step can do: an idle step keeps the state, a reset makes it legal whatever it was, and a port
read or a word comes after a reset, so that it starts from a legal state and keeps it legal. -/
theorem stepKeepsInvariant : Obligations.StepKeepsInvariant := by
  intro s t ⟨hcfg, hlegal⟩ hstep
  obtain ⟨-, rfl⟩ | ⟨rest, -, rfl⟩ | ⟨rest, hw, -, rfl⟩ | ⟨rest, hw, -, rfl⟩ | ⟨w, rest, hw, -, hrun⟩ :=
    step_cases hstep
  · exact ⟨hcfg, hlegal⟩
  · exact inv_of_legal (legal_applyReset hcfg)
  · exact inv_of_legal (legal_recordReading _ (legal_dropAction rest (hlegal hw)))
  · exact inv_of_legal (legal_recordReading _ (legal_dropAction rest (hlegal hw)))
  · obtain ⟨u, hu, hlegalU⟩ := runWord_keeps_legal w (legal_countCommand (legal_dropAction rest (hlegal hw)))
    obtain rfl := Host.Outcome.next.inj (hu.symm.trans hrun)
    exact inv_of_legal hlegalU

end Sys2Proof.Machine
end

section
/-! SUPPORT. What the index checks, HR_CHAR, a word and a port read do, and what a command can do to the error record, each
said once for the statements of 10_state.md. -/

namespace Sys2Proof.Machine

/-! ## The index checks -/

/-- The check of TS_WR and TS_RD gives the command's effect or `Error(3)` (R71). -/
theorem ifTsIndex_cases {idx : Byte} {t s u : State} (h : ifTsIndex idx t s = u) :
    u = t ∨ u = raiseError .indexRange s :=
  h ▸ ite_eq_or_eq ..

/-- The check of PS_WR and PS_RD gives the command's effect or `Error(3)` (R71). -/
theorem ifPsIndex_cases {idx : Byte} {t s u : State} (h : ifPsIndex idx t s = u) :
    u = t ∨ u = raiseError .indexRange s :=
  h ▸ ite_eq_or_eq ..

/-- The check reads `L` only, so it commutes with an update that keeps `L` and the error record. -/
theorem ifTsIndex_comm (f : State → State) (idx : Byte) (t s : State) (hsize : tsSize (f s) = tsSize s)
    (herr : raiseError .indexRange (f s) = f (raiseError .indexRange s)) :
    ifTsIndex idx (f t) (f s) = f (ifTsIndex idx t s) := by
  simp only [ifTsIndex, hsize, herr, apply_ite f]

/-- The check reads `L` only, so it commutes with an update that keeps `L` and the error record. -/
theorem ifPsIndex_comm (f : State → State) (idx : Byte) (t s : State) (hsize : psSize (f s) = psSize s)
    (herr : raiseError .indexRange (f s) = f (raiseError .indexRange s)) :
    ifPsIndex idx (f t) (f s) = f (ifPsIndex idx t s) := by
  simp only [ifPsIndex, hsize, herr, apply_ite f]

/-! ## TS_WR, PS_WR and HR_CHAR -/

theorem exec_tsWr_of_lt {idx : Byte} {s : State} (val : Byte) (h : idx.toNat < tsSize s) :
    exec (.tsWr idx val) s = .next (writeTs idx.toNat val s) :=
  congrArg Host.Outcome.next (ifTsIndex_inside h)

theorem exec_tsWr_of_le {idx : Byte} {s : State} (val : Byte) (h : tsSize s ≤ idx.toNat) :
    exec (.tsWr idx val) s = .next (raiseError .indexRange s) :=
  congrArg Host.Outcome.next (ifTsIndex_outside h)

theorem exec_psWr_of_lt {idx : Byte} {s : State} (val : Byte) (h : idx.toNat < psSize s) :
    exec (.psWr idx val) s = .next (writePs idx.toNat val s) :=
  congrArg Host.Outcome.next (ifPsIndex_inside h)

theorem exec_psWr_of_le {idx : Byte} {s : State} (val : Byte) (h : psSize s ≤ idx.toNat) :
    exec (.psWr idx val) s = .next (raiseError .indexRange s) :=
  congrArg Host.Outcome.next (ifPsIndex_outside h)

theorem exec_hrChar_of_lt {s : State} (ch : Byte) (h : s.hrc.toNat < tsSize s) :
    exec (.hrChar ch) s = .next (writeHrc (s.hrc + 1#8) (writeTs s.hrc.toNat (hr ch) s)) :=
  congrArg Host.Outcome.next (if_pos h)

theorem exec_hrChar_of_le {s : State} (ch : Byte) (h : tsSize s ≤ s.hrc.toNat) : exec (.hrChar ch) s = .next s :=
  congrArg Host.Outcome.next (if_neg (Nat.not_lt.mpr h))

/-- HR_CHAR stores a tryte at the cursor and advances it, or changes nothing (R65). -/
theorem exec_hrChar_cases {s t : State} {ch : Byte} (h : exec (.hrChar ch) s = .next t) :
    t = writeHrc (s.hrc + 1#8) (writeTs s.hrc.toNat (hr ch) s) ∨ t = s :=
  Host.Outcome.next.inj h ▸ ite_eq_or_eq ..

/-! ## The error record -/

/-- Taking an error is the effect and the frame of R84, with the number of R83. -/
theorem raisesError_raiseError (c : ErrorCode) (s : State) :
    RaisesError (errorNumber c).toNat (.next (raiseError c s)) s :=
  ⟨_, rfl, rfl, apply_ite BitVec.toNat _ _ _⟩

/-- With an error recorded, taking another changes nothing (R86). -/
theorem raiseError_of_err {s : State} (c : ErrorCode) (h : s.err = true) : raiseError c s = s := by
  cases s
  simp_all [raiseError]

/-- The four commands with an index to check (R71). -/
def ElementCommand : Instr → Prop
  | .tsWr _ _ | .tsRd _ | .psWr _ _ | .psRd _ => True
  | .enc3 _ _ _ | .dec3 _ _ | .seqEnc | .seqDec | .hrStart | .hrChar _ | .rand => False

/-- A command keeps the error record, or it is an element command and takes `Error(3)` with no other effect (R71). -/
theorem exec_error_cases {i : Instr} {s t : State} (h : exec i s = .next t) :
    (t.err = s.err ∧ t.ecode = s.ecode) ∨ (t = raiseError .indexRange s ∧ ElementCommand i) := by
  cases i with
  | tsWr _ _ | tsRd _ =>
    obtain rfl | rfl := ifTsIndex_cases (Host.Outcome.next.inj h)
    · exact .inl ⟨rfl, rfl⟩
    · exact .inr ⟨rfl, trivial⟩
  | psWr _ _ | psRd _ =>
    obtain rfl | rfl := ifPsIndex_cases (Host.Outcome.next.inj h)
    · exact .inl ⟨rfl, rfl⟩
    · exact .inr ⟨rfl, trivial⟩
  | hrChar ch => obtain rfl | rfl := exec_hrChar_cases h <;> exact .inl ⟨rfl, rfl⟩
  | enc3 _ _ _ | dec3 _ _ | seqEnc | seqDec | hrStart | rand =>
    obtain rfl := Host.Outcome.next.inj h
    exact .inl ⟨rfl, rfl⟩

/-! ## A word on the command port and a read of a port -/

theorem runWord_of_command {w : Word} {i : Instr} (s : State) (h : decode w = .command i) : runWord w s = exec i s := by
  simp only [runWord, h]

theorem runWord_of_illegalOpcode {w : Word} (s : State) (h : decode w = .illegalOpcode) :
    runWord w s = .next (raiseError .illegalOpcode s) := by
  simp only [runWord, h]

theorem runWord_of_reservedField {w : Word} (s : State) (h : decode w = .reservedField) :
    runWord w s = .next (raiseError .reservedField s) := by
  simp only [runWord, h]

/-- A recorded error outlives every word on the command port, with its code (R86). -/
theorem runWord_keeps_error {w : Word} {s t : State} (he : s.err = true) (h : runWord w s = .next t) :
    t.err = true ∧ t.ecode = s.ecode := by
  cases hd : decode w with
  | command i =>
    rw [runWord_of_command s hd] at h
    obtain ⟨herr, hecode⟩ | ⟨rfl, -⟩ := exec_error_cases h
    · exact ⟨herr.trans he, hecode⟩
    · rw [raiseError_of_err _ he]
      exact ⟨he, rfl⟩
  | illegalOpcode =>
    rw [runWord_of_illegalOpcode s hd, raiseError_of_err _ he] at h
    obtain rfl := Host.Outcome.next.inj h
    exact ⟨he, rfl⟩
  | reservedField =>
    rw [runWord_of_reservedField s hd, raiseError_of_err _ he] at h
    obtain rfl := Host.Outcome.next.inj h
    exact ⟨he, rfl⟩

theorem step_of_readResult {s : State} {rest : List HostAction} (hw : s.wasReset = true)
    (hs : s.script = .readResult :: rest) :
    step s = .next (recordReading (.result s.res) (dropAction rest s)) := by
  simp only [step, hostStep, hs, hostAct]
  exact afterReset_of_reset hw

theorem step_of_readStatus {s : State} {rest : List HostAction} (hw : s.wasReset = true)
    (hs : s.script = .readStatus :: rest) :
    step s = .next (recordReading (.status (statusWord s)) (dropAction rest s)) := by
  simp only [step, hostStep, hs, hostAct]
  exact afterReset_of_reset hw

/-- The layout of `STATUS` as a number (R20); `L` fits its field by R7. -/
theorem statusWord_toNat {s : State} (h : s.cfg.wellFormed = true) :
    (statusWord s).toNat =
      (if s.err then 1 else 0) + 2 * s.ecode.toNat + 256 * s.hrc.toNat + 65536 * s.cfg.groups := by
  have hL : (lcfg s).toNat = s.cfg.groups := by
    simp only [Config.wellFormed, Bool.and_eq_true, decide_eq_true_eq] at h
    simp only [lcfg, BitVec.toNat_ofNat]
    omega
  have herr : (BitVec.ofBool s.err).toNat = if s.err then 1 else 0 := by
    cases s.err <;> rfl
  simp only [statusWord, append_toNat, hL, herr, BitVec.toNat_ofNat]
  omega

/-! ## Another array in `TS` or `PS` -/

theorem eq_of_exec {i : Instr} {s t u : State} (ht : exec i s = .next t) (hu : exec i s = .next u) : t = u :=
  Host.Outcome.next.inj (ht.symm.trans hu)

/-- A write of one element keeps the others, and what it leaves at its own index depends on the length of the array
alone. -/
theorem getElem?_set_frame (k : Nat) (v : Byte) (l a : List Byte) :
    (∀ j, j ≠ k → (l.set k v)[j]? = l[j]?) ∧ (l.length = a.length → (l.set k v)[k]? = (a.set k v)[k]?) :=
  ⟨fun _ hj => List.getElem?_set_ne hj.symm, fun h => by simp [List.getElem?_set, h]⟩

/-- TS_RD reads the one element of its index (R13). -/
theorem exec_tsRd_fillTs {idx : Byte} {s t : State} {l : List Byte} (h : exec (.tsRd idx) s = .next t)
    (hl : l[idx.toNat]? = s.ts[idx.toNat]?) : exec (.tsRd idx) (fillTs l s) = .next (fillTs l t) := by
  obtain rfl := Host.Outcome.next.inj h
  have hread : readTs idx.toNat (fillTs l s) = readTs idx.toNat s := by
    simp [readTs, List.getD_eq_getElem?_getD, hl]
  have hwrite : writeRes (elementWord (readTs idx.toNat (fillTs l s))) (fillTs l s) =
      fillTs l (writeRes (elementWord (readTs idx.toNat s)) s) := by
    rw [hread]; rfl
  simp only [exec, execTsRd, hwrite]
  exact congrArg _ (ifTsIndex_comm (fillTs l) idx _ s rfl rfl)

/-- PS_RD reads the one element of its index (R15). -/
theorem exec_psRd_fillPs {idx : Byte} {s t : State} {l : List Byte} (h : exec (.psRd idx) s = .next t)
    (hl : l[idx.toNat]? = s.ps[idx.toNat]?) : exec (.psRd idx) (fillPs l s) = .next (fillPs l t) := by
  obtain rfl := Host.Outcome.next.inj h
  have hread : readPs idx.toNat (fillPs l s) = readPs idx.toNat s := by
    simp [readPs, List.getD_eq_getElem?_getD, hl]
  have hwrite : writeRes (elementWord (readPs idx.toNat (fillPs l s))) (fillPs l s) =
      fillPs l (writeRes (elementWord (readPs idx.toNat s)) s) := by
    rw [hread]; rfl
  simp only [exec, execPsRd, hwrite]
  exact congrArg _ (ifPsIndex_comm (fillPs l) idx _ s rfl rfl)

end Sys2Proof.Machine
end

section
/-! PROOF. The registers of 10_state.md: reset and port reads, the error record, and who reads and writes `TS`, `PS`, `RES`
and `HRC`. -/

namespace Sys2Proof.Machine

/-! ## Reset and the ports -/

/-- Settles O35: each register by its definition, `STATUS` by its layout. -/
theorem resetValues : Obligations.ResetValues := by
  intro c hc
  refine ⟨rfl, rfl, rfl, rfl, rfl, rfl, ?_⟩
  simpa [State.resetOf] using statusWord_toNat (s := State.resetOf c) hc

/-- The reset state is what the reset input makes of itself, so it meets the invariant. -/
theorem inv_resetOf {c : Config} (h : c.wellFormed = true) : Inv (State.resetOf c) :=
  inv_of_legal (legal_applyReset (s := State.resetOf c) h)

/-- Settles O36, `State.reset` being `State.resetOf` at well-formed parameters. -/
theorem invariantAtReset : Obligations.InvariantAtReset :=
  ⟨fun _ => inv_resetOf, inv_resetOf (c := builtInstance) (by decide)⟩

/-- Settles O45: such a word takes its error in the state past it (R84). -/
theorem stepOnAWordThatSpellsNoCommand : Obligations.StepOnAWordThatSpellsNoCommand := by
  intro s w rest hw hs
  rw [step_of_command hw hs]
  constructor <;> intro hd
  · rw [runWord_of_illegalOpcode _ hd]
    exact raisesError_raiseError .illegalOpcode _
  · rw [runWord_of_reservedField _ hd]
    exact raisesError_raiseError .reservedField _

/-- Settles O46: the word by its layout, the legal values from the legal state's error record and cursor. -/
theorem statusRegister : Obligations.StatusRegister := by
  intro s hlegal
  obtain ⟨hcfg, -, -, hhrc, hle, hiff⟩ := hlegal
  refine ⟨statusWord_toNat hcfg, hle, ?_, hhrc, fun rest hw hs => step_of_readStatus hw hs⟩
  rw [← Bool.not_eq_true, hiff, not_not]
  exact BitVec.toNat_inj.symm

/-- Settles O47, by what a step does with a read of the result port next. -/
theorem resultPortRead : Obligations.ResultPortRead :=
  fun _ _ hw hs => step_of_readResult hw hs

/-! ## The error record -/

/-- Settles O10, by what a step can do: only a reset touches a recorded error, a word keeps it. -/
theorem errorRecordIsStickyUntilReset : Obligations.ErrorRecordIsStickyUntilReset := by
  intro s t hstep he hne
  obtain ⟨-, rfl⟩ | ⟨rest, hs, -⟩ | ⟨rest, -, -, rfl⟩ | ⟨rest, -, -, rfl⟩ | ⟨w, rest, -, -, hrun⟩ := step_cases hstep
  · exact ⟨he, rfl⟩
  · exact absurd (by rw [hs]; rfl) hne
  · exact ⟨he, rfl⟩
  · exact ⟨he, rfl⟩
  · exact runWord_keeps_error (s := countCommand (dropAction rest s)) he hrun

/-! ## Who writes `RES` and `HRC` -/

/-- The four commands with a result (R16). -/
def ResultCommand : Instr → Prop
  | .enc3 _ _ _ | .dec3 _ _ | .tsRd _ | .psRd _ => True
  | .seqEnc | .seqDec | .tsWr _ _ | .psWr _ _ | .hrStart | .hrChar _ | .rand => False

/-- Only a command with a result writes `RES` (R16). -/
theorem exec_res {i : Instr} {s t : State} (h : exec i s = .next t) : t.res = s.res ∨ ResultCommand i := by
  cases i with
  | enc3 _ _ _ | dec3 _ _ | tsRd _ | psRd _ => exact .inr trivial
  | tsWr _ _ => obtain rfl | rfl := ifTsIndex_cases (Host.Outcome.next.inj h) <;> exact .inl rfl
  | psWr _ _ => obtain rfl | rfl := ifPsIndex_cases (Host.Outcome.next.inj h) <;> exact .inl rfl
  | hrChar _ => obtain rfl | rfl := exec_hrChar_cases h <;> exact .inl rfl
  | seqEnc | seqDec | hrStart | rand =>
    obtain rfl := Host.Outcome.next.inj h
    exact .inl rfl

/-- Only HR_START and HR_CHAR write `HRC` (R22). -/
theorem exec_hrc {i : Instr} {s t : State} (h : exec i s = .next t) :
    t.hrc = s.hrc ∨ i = .hrStart ∨ ∃ ch, i = .hrChar ch := by
  cases i with
  | hrStart => exact .inr (.inl rfl)
  | hrChar ch => exact .inr (.inr ⟨ch, rfl⟩)
  | tsWr _ _ | tsRd _ => obtain rfl | rfl := ifTsIndex_cases (Host.Outcome.next.inj h) <;> exact .inl rfl
  | psWr _ _ | psRd _ => obtain rfl | rfl := ifPsIndex_cases (Host.Outcome.next.inj h) <;> exact .inl rfl
  | enc3 _ _ _ | dec3 _ _ | seqEnc | seqDec | rand =>
    obtain rfl := Host.Outcome.next.inj h
    exact .inl rfl

/-- Settles O41: a first error is that of an element command, which has no other effect. -/
theorem resultAndCursorWriters : Obligations.ResultAndCursorWriters := by
  intro i s t h
  refine ⟨fun hne => ?_, (exec_hrc h).resolve_left, fun hs ht => ?_⟩
  · have hres : ResultCommand i := (exec_res h).resolve_left hne
    cases i <;> exact hres
  · obtain ⟨herr, -⟩ | ⟨rfl, helement⟩ := exec_error_cases h
    · exact absurd (herr.symm.trans ht) (by simp [hs])
    · refine ⟨raisesError_raiseError .indexRange s, ?_⟩
      cases i <;> exact helement

/-! ## Who reads and writes `TS` and `PS`

With another array in `TS` or `PS`, a command that does not read it has the same effect outside it: `fillTs l` or `fillPs l`
commutes with the effect. -/

/-- Settles O39, command by command. -/
theorem tryteSequenceReadersAndWriters : Obligations.TryteSequenceReadersAndWriters := by
  refine ⟨fun i s t h => ?writers, fun i s t l h hseq hrd => ?others, fun _ _ _ _ => exec_tsRd_fillTs⟩
  case writers =>
    cases i with
    | hrStart | rand | seqDec => exact .inr trivial
    | tsWr _ _ =>
      obtain rfl | rfl := ifTsIndex_cases (Host.Outcome.next.inj h)
      · exact .inr fun k hk => List.getElem?_set_ne hk.symm
      · exact .inl rfl
    | hrChar _ =>
      obtain rfl | rfl := exec_hrChar_cases h
      · exact .inr fun k hk => List.getElem?_set_ne hk.symm
      · exact .inl rfl
    | tsRd _ => obtain rfl | rfl := ifTsIndex_cases (Host.Outcome.next.inj h) <;> exact .inl rfl
    | psWr _ _ | psRd _ => obtain rfl | rfl := ifPsIndex_cases (Host.Outcome.next.inj h) <;> exact .inl rfl
    | enc3 _ _ _ | dec3 _ _ | seqEnc =>
      obtain rfl := Host.Outcome.next.inj h
      exact .inl rfl
  case others =>
    cases i with
    | seqEnc => exact absurd rfl hseq
    | tsRd idx => exact absurd rfl (hrd idx)
    | enc3 _ _ _ | dec3 _ _ | hrStart | rand | seqDec =>
      obtain rfl := Host.Outcome.next.inj h
      exact ⟨_, rfl, rfl⟩
    | psWr idx val =>
      obtain rfl := Host.Outcome.next.inj h
      exact ⟨l, congrArg Host.Outcome.next (ifPsIndex_comm (fillTs l) idx (writePs idx.toNat val s) s rfl rfl), rfl⟩
    | psRd idx =>
      obtain rfl := Host.Outcome.next.inj h
      exact ⟨l, congrArg Host.Outcome.next
        (ifPsIndex_comm (fillTs l) idx (writeRes (elementWord (readPs idx.toNat s)) s) s rfl rfl), rfl⟩
    | tsWr idx val =>
      rcases Nat.lt_or_ge idx.toNat (tsSize s) with hi | hi
      · obtain rfl := eq_of_exec (exec_tsWr_of_lt val hi) h
        exact ⟨_, exec_tsWr_of_lt (s := fillTs l s) val hi, (if_pos hi).mpr (getElem?_set_frame ..)⟩
      · obtain rfl := eq_of_exec (exec_tsWr_of_le val hi) h
        exact ⟨_, exec_tsWr_of_le (s := fillTs l s) val hi, (if_neg (Nat.not_lt.mpr hi)).mpr rfl⟩
    | hrChar ch =>
      rcases Nat.lt_or_ge s.hrc.toNat (tsSize s) with hi | hi
      · obtain rfl := eq_of_exec (exec_hrChar_of_lt ch hi) h
        exact ⟨_, exec_hrChar_of_lt (s := fillTs l s) ch hi, (if_pos hi).mpr (getElem?_set_frame ..)⟩
      · obtain rfl := eq_of_exec (exec_hrChar_of_le ch hi) h
        exact ⟨_, exec_hrChar_of_le (s := fillTs l s) ch hi, (if_neg (Nat.not_lt.mpr hi)).mpr rfl⟩

/-- Settles O40, command by command. -/
theorem packedSequenceReadersAndWriters : Obligations.PackedSequenceReadersAndWriters := by
  refine ⟨fun i s t h => ?writers, fun i s t l h hseq hrd => ?others, fun _ _ _ _ => exec_psRd_fillPs⟩
  case writers =>
    cases i with
    | seqEnc => exact .inr trivial
    | psWr _ _ =>
      obtain rfl | rfl := ifPsIndex_cases (Host.Outcome.next.inj h)
      · exact .inr fun j hj => List.getElem?_set_ne hj.symm
      · exact .inl rfl
    | psRd _ => obtain rfl | rfl := ifPsIndex_cases (Host.Outcome.next.inj h) <;> exact .inl rfl
    | tsWr _ _ | tsRd _ => obtain rfl | rfl := ifTsIndex_cases (Host.Outcome.next.inj h) <;> exact .inl rfl
    | hrChar _ => obtain rfl | rfl := exec_hrChar_cases h <;> exact .inl rfl
    | enc3 _ _ _ | dec3 _ _ | seqDec | hrStart | rand =>
      obtain rfl := Host.Outcome.next.inj h
      exact .inl rfl
  case others =>
    cases i with
    | seqDec => exact absurd rfl hseq
    | psRd idx => exact absurd rfl (hrd idx)
    | enc3 _ _ _ | dec3 _ _ | seqEnc | hrStart | rand =>
      obtain rfl := Host.Outcome.next.inj h
      exact ⟨_, rfl, rfl⟩
    | tsWr idx val =>
      obtain rfl := Host.Outcome.next.inj h
      exact ⟨l, congrArg Host.Outcome.next (ifTsIndex_comm (fillPs l) idx (writeTs idx.toNat val s) s rfl rfl), rfl⟩
    | tsRd idx =>
      obtain rfl := Host.Outcome.next.inj h
      exact ⟨l, congrArg Host.Outcome.next
        (ifTsIndex_comm (fillPs l) idx (writeRes (elementWord (readTs idx.toNat s)) s) s rfl rfl), rfl⟩
    | hrChar ch =>
      rcases Nat.lt_or_ge s.hrc.toNat (tsSize s) with hi | hi
      · obtain rfl := eq_of_exec (exec_hrChar_of_lt ch hi) h
        exact ⟨_, exec_hrChar_of_lt (s := fillPs l s) ch hi, rfl⟩
      · obtain rfl := eq_of_exec (exec_hrChar_of_le ch hi) h
        exact ⟨_, exec_hrChar_of_le (s := fillPs l s) ch hi, rfl⟩
    | psWr idx val =>
      rcases Nat.lt_or_ge idx.toNat (psSize s) with hi | hi
      · obtain rfl := eq_of_exec (exec_psWr_of_lt val hi) h
        exact ⟨_, exec_psWr_of_lt (s := fillPs l s) val hi, (if_pos hi).mpr (getElem?_set_frame ..)⟩
      · obtain rfl := eq_of_exec (exec_psWr_of_le val hi) h
        exact ⟨_, exec_psWr_of_le (s := fillPs l s) val hi, (if_neg (Nat.not_lt.mpr hi)).mpr rfl⟩

end Sys2Proof.Machine
end

section
/-! PROOF. Execution of a command by 20_memory.md: what a command may depend on (R31), and the step that runs it (R17,
R34). -/

namespace Sys2Proof.Machine

/-- The state with other surroundings of the block: the entropy input and the count of draws, and the host's list, readings
and position. -/
def withSurroundings (e : List (Fin 27)) (d : Nat) (sc : List HostAction) (r : List Reading) (p : Nat) (s : State) :
    State :=
  { s with entropy := e, draws := d, script := sc, reads := r, pos := p }

/-- Other surroundings commute with every command but RAND: with its effect, and with its check of an index or the
cursor, which reads `L` and `HRC` only. -/
theorem exec_withSurroundings (e : List (Fin 27)) (d : Nat) (sc : List HostAction) (r : List Reading) (p : Nat)
    {i : Instr} {s t : State} (hrand : i ≠ .rand) (h : exec i s = .next t) :
    exec i (withSurroundings e d sc r p s) = .next (withSurroundings e d sc r p t) := by
  cases i with
  | rand => exact absurd rfl hrand
  | enc3 _ _ _ | dec3 _ _ | seqEnc | seqDec | hrStart =>
    obtain rfl := Host.Outcome.next.inj h
    rfl
  | tsWr idx val =>
    obtain rfl := Host.Outcome.next.inj h
    exact congrArg Host.Outcome.next
      (ifTsIndex_comm (withSurroundings e d sc r p) idx (writeTs idx.toNat val s) s rfl rfl)
  | tsRd idx =>
    obtain rfl := Host.Outcome.next.inj h
    exact congrArg Host.Outcome.next
      (ifTsIndex_comm (withSurroundings e d sc r p) idx (writeRes (elementWord (readTs idx.toNat s)) s) s rfl rfl)
  | psWr idx val =>
    obtain rfl := Host.Outcome.next.inj h
    exact congrArg Host.Outcome.next
      (ifPsIndex_comm (withSurroundings e d sc r p) idx (writePs idx.toNat val s) s rfl rfl)
  | psRd idx =>
    obtain rfl := Host.Outcome.next.inj h
    exact congrArg Host.Outcome.next
      (ifPsIndex_comm (withSurroundings e d sc r p) idx (writeRes (elementWord (readPs idx.toNat s)) s) s rfl rfl)
  | hrChar ch =>
    rcases Nat.lt_or_ge s.hrc.toNat (tsSize s) with hi | hi
    · obtain rfl := eq_of_exec (exec_hrChar_of_lt ch hi) h
      exact exec_hrChar_of_lt (s := withSurroundings e d sc r p s) ch hi
    · obtain rfl := eq_of_exec (exec_hrChar_of_le ch hi) h
      exact exec_hrChar_of_le (s := withSurroundings e d sc r p s) ch hi

/-- Settles O42: other surroundings commute with the command. -/
theorem everyCommandButRandIsDeterministic : Obligations.EveryCommandButRandIsDeterministic :=
  fun _ _ _ e d sc r p => exec_withSurroundings e d sc r p

/-- Settles O44: the step presents the word, and a word that decodes to a command runs it. -/
theorem stepRunsTheDecodedCommand : Obligations.StepRunsTheDecodedCommand :=
  fun _ _ _ _ hw hs hd => (step_of_command hw hs).trans (runWord_of_command _ hd)

end Sys2Proof.Machine
end

section
/-! SUPPORT. What the decoder and the encoder are to each other, and a word under the mask of a row of the opcode map. -/

namespace Sys2Proof

/-! ## A word that decodes to a command -/

/-- The opcode field of an encoded command is the command's opcode (R43, R48). -/
theorem encode_opcode (i : Instr) : (encode i).toNat / 2 ^ 28 = opcodeOf i := by
  rw [encode_toNat]
  cases i <;> simp only [opcodeOf] <;> omega

/-- The operand fields of an encoded command are the command's operands (R42, R48). -/
theorem commandOf_encode (i : Instr) : commandOf (opcodeOf i) (encode i) = some i := by
  have hword := encode_toNat i
  cases i with
  | seqEnc | seqDec | hrStart | rand => rfl
  | enc3 _ _ _ | dec3 _ _ | tsWr _ _ | tsRd _ | psWr _ _ | psRd _ | hrChar _ =>
    simp only [opcodeOf, commandOf, Option.some.injEq, Instr.enc3.injEq, Instr.dec3.injEq, Instr.tsWr.injEq,
      Instr.tsRd.injEq, Instr.psWr.injEq, Instr.psRd.injEq, Instr.hrChar.injEq, BitVec.toNat_eq, fieldA_toNat,
      fieldB_toNat, fieldC_toNat, hword]
    omega

/-- The reserved bits of an encoded command are 0 (R41, R48). -/
theorem reservedZero_encode {i : Instr} {f : Format} (h : opFormat (opcodeOf i) = some f) :
    reservedZero f (encode i) = true := by
  rw [reservedZero_iff, encode_toNat]
  cases i <;> obtain rfl := Option.some.inj h <;> simp only <;> omega

/-- A legal opcode selects a command, and one of that opcode (R43). -/
theorem commandOf_of_opFormat {op : Nat} {f : Format} (w : Word) (h : opFormat op = some f) :
    ∃ i, commandOf op w = some i ∧ opcodeOf i = op := by
  unfold opFormat at h
  split at h
  case h_12 => cases h
  all_goals exact ⟨_, rfl, rfl⟩

/-- A word with a legal opcode is that opcode's command if its reserved bits are 0, and else a reserved-field violation
(R47). -/
theorem decode_of_opFormat {w : Word} {f : Format} (h : opFormat (w.toNat / 2 ^ 28) = some f) :
    ∃ i, commandOf (w.toNat / 2 ^ 28) w = some i ∧ opcodeOf i = w.toNat / 2 ^ 28 ∧
      decode w = if reservedZero f w then .command i else .reservedField := by
  obtain ⟨i, hi, hop⟩ := commandOf_of_opFormat w h
  exact ⟨i, hi, hop, by rw [decode_eq, h, hi]⟩

/-- A word without a legal opcode is an illegal opcode (R44, R47). -/
theorem decode_of_opFormat_none {w : Word} (h : opFormat (w.toNat / 2 ^ 28) = none) : decode w = .illegalOpcode := by
  rw [decode_eq, h]

/-- What a word that decodes to a command has: a legal opcode, that opcode's command, and reserved bits 0. -/
theorem of_decode_eq_command {w : Word} {i : Instr} (h : decode w = .command i) :
    ∃ f, opFormat (w.toNat / 2 ^ 28) = some f ∧ commandOf (w.toNat / 2 ^ 28) w = some i ∧ reservedZero f w = true := by
  cases hf : opFormat (w.toNat / 2 ^ 28) with
  | none => cases (decode_of_opFormat_none hf).symm.trans h
  | some f =>
    obtain ⟨j, hj, -, hd⟩ := decode_of_opFormat hf
    rw [h] at hd
    split at hd
    · next hr =>
      obtain rfl := Decoded.command.inj hd
      exact ⟨f, rfl, hj, hr⟩
    · cases hd

/-- A word is its opcode, its operand fields and reserved zeros, so it is the encoding of the command it selects. -/
theorem encode_of_commandOf {w : Word} {i : Instr} {f : Format} (hf : opFormat (w.toNat / 2 ^ 28) = some f)
    (hi : commandOf (w.toNat / 2 ^ 28) w = some i) (hr : reservedZero f w = true) : encode i = w := by
  rw [reservedZero_iff] at hr
  refine BitVec.eq_of_toNat_eq ?_
  generalize hop : w.toNat / 2 ^ 28 = op at hf hi
  unfold commandOf at hi
  split at hi
  case h_12 => cases hi
  all_goals
    obtain rfl := Option.some.inj hi
    obtain rfl := Option.some.inj hf
    simp only [encode_toNat, fieldA_toNat, fieldB_toNat, fieldC_toNat]
    omega

/-- Settles O1: the opcode of an encoded command is legal, its operand fields are the operands and its reserved bits 0. -/
theorem decodeOfEncode : Obligations.DecodeOfEncode := by
  intro i
  obtain ⟨f, hf⟩ := opFormat_opcodeOf i
  rw [decode_eq, encode_opcode, hf, commandOf_encode]
  exact if_pos (reservedZero_encode hf)

/-- Settles O2: a word is what its opcode, its operand fields and its reserved zeros make it. -/
theorem encodeOfDecode : Obligations.EncodeOfDecode := by
  intro w i h
  obtain ⟨f, hf, hi, hr⟩ := of_decode_eq_command h
  exact encode_of_commandOf hf hi hr

/-! ## A word under a mask -/

/-- The mask of a format's rows (R43): the opcode and the bits the format reserves. -/
def formatMask : Format → Word
  | .t => 0xFF000000#32
  | .p => 0xFFFF0000#32
  | .w => 0xFFFF0000#32
  | .r => 0xFFFF00FF#32
  | .c => 0xFFFFFF00#32
  | .n => 0xFFFFFFFF#32

/-- A row's mask is its format's, and its match is its opcode with the reserved bits 0 (R43). -/
theorem opcodeMap_row {row : OpRow} (h : row ∈ opcodeMap) :
    opFormat row.op = some row.format ∧ row.mask = formatMask row.format ∧ (fieldOp row.matchVal).toNat = row.op ∧
      reservedZero row.format row.matchVal = true := by
  revert row
  decide

theorem opcodeMap_row_unique : ∀ row ∈ opcodeMap, ∀ row' ∈ opcodeMap, row.op = row'.op → row = row' := by
  decide

/-- The mask keeps a slice it covers. -/
theorem extract_and {w m : Word} {lo len : Nat} (h : m.extractLsb' lo len = BitVec.allOnes len) :
    (w &&& m).extractLsb' lo len = w.extractLsb' lo len := by
  rw [BitVec.extractLsb'_and, h, BitVec.and_allOnes]

theorem fieldOp_and_formatMask (f : Format) (w : Word) : fieldOp (w &&& formatMask f) = fieldOp w := by
  cases f <;> exact extract_and rfl

/-- The mask of a format keeps the bits the format reserves. -/
theorem reservedZero_and_formatMask (f : Format) (w : Word) : reservedZero f (w &&& formatMask f) = reservedZero f w := by
  cases f with
  | r => rw [reservedZero, extract_and rfl, extract_and rfl, reservedZero]
  | t | p | w | c | n => rw [reservedZero, extract_and rfl, reservedZero]

/-- The word of a command matches its row (R43), whatever its operands. -/
theorem encode_matches_row (i : Instr) : Laws.EncodedRow.Statement i := by
  cases i with
  | enc3 t0 t1 t2 => exact Laws.EncodedRow.enc3 t0 t1 t2
  | dec3 b0 b1 => exact Laws.EncodedRow.dec3 b0 b1
  | seqEnc => exact Laws.EncodedRow.seqEnc
  | seqDec => exact Laws.EncodedRow.seqDec
  | tsWr idx val => exact Laws.EncodedRow.tsWr idx val
  | tsRd idx => exact Laws.EncodedRow.tsRd idx
  | psWr idx val => exact Laws.EncodedRow.psWr idx val
  | psRd idx => exact Laws.EncodedRow.psRd idx
  | hrStart => exact Laws.EncodedRow.hrStart
  | hrChar ch => exact Laws.EncodedRow.hrChar ch
  | rand => exact Laws.EncodedRow.rand

/-- Settles O3: the mask keeps what the decoder looks at, and the word of a command matches the one row of its opcode. -/
theorem matchAndMaskSelectTheCommand : Obligations.MatchAndMaskSelectTheCommand := by
  intro row hrow w
  constructor
  · intro h
    obtain ⟨hf, hmask, hop, hr⟩ := opcodeMap_row hrow
    rw [← h, hmask, fieldOp_and_formatMask, fieldOp_toNat] at hop
    rw [← h, hmask, reservedZero_and_formatMask] at hr
    obtain ⟨i, -, hi, hd⟩ := decode_of_opFormat (hop ▸ hf)
    exact ⟨i, hd.trans (if_pos hr), hi.trans hop⟩
  · rintro ⟨i, hd, hop⟩
    obtain ⟨row', hrow', hop', hmatch⟩ := encode_matches_row i
    obtain rfl := opcodeMap_row_unique row' hrow' row hrow (hop'.trans hop)
    rwa [encodeOfDecode w i hd] at hmatch

end Sys2Proof
end

section
/-! PROOF. The words that spell no command (R44, R45). -/

namespace Sys2Proof.Machine

/-- Settles O4: none of the five opcodes is legal. -/
theorem illegalOpcodeRaisesErrorOne : Obligations.IllegalOpcodeRaisesErrorOne := by
  have illegal : ∀ op ∈ [0x0, 0xC, 0xD, 0xE, 0xF], opFormat op = none := by decide
  intro w s hop
  rw [runWord_of_illegalOpcode s (decode_of_opFormat_none (illegal _ hop))]
  exact raisesError_raiseError .illegalOpcode s

/-- Settles O5: the statement's reserved bits are the decoder's, and with those 0 the word is a command of the row. -/
theorem reservedBitsRaiseErrorTwo : Obligations.ReservedBitsRaiseErrorTwo := by
  intro row hrow w s hop reserved
  have hreserved : reserved = false ↔ reservedZero row.format w = true := by
    rw [reservedZero_iff]
    simp only [reserved]
    cases row.format <;> simp
  obtain ⟨i, -, hi, hd⟩ := decode_of_opFormat (hop ▸ (opcodeMap_row hrow).1)
  rw [matchAndMaskSelectTheCommand row hrow w]
  by_cases hz : reservedZero row.format w = true
  · rw [if_pos hz] at hd
    simp [hreserved.2 hz, hd, hi.trans hop]
  · rw [if_neg hz] at hd
    rw [runWord_of_reservedField s hd]
    refine ⟨fun _ => raisesError_raiseError .reservedField s, ?_, ?_⟩
    · simp [hreserved, hz, hd]
    · simp [hd]

end Sys2Proof.Machine
end

section
/-! PROOF. The assembler (R48): which read lines are errors and the words of the others, then lines of text. -/

namespace Sys2Proof.Machine

/-- A line is an assembly error exactly when it is not well formed. -/
theorem assembleLine_eq_none_iff (l : SourceLine) : assembleLine l = none ↔ l.wellFormed = false := by
  rw [assembleLine]
  cases l.wellFormed <;> simp

theorem assembleLine_of_wellFormed {l : SourceLine} (h : l.wellFormed = true) : assembleLine l = some (lineWord l) :=
  if_pos h

/-- A line of a form's number of bytes is its form's word. -/
theorem assembleLine_bytes {m : Mnemonic} {os : List Nat} (hm : m ≠ .word) (hlen : os.length = m.arity)
    (hos : ∀ v ∈ os, v < 256) :
    assembleLine ⟨m, os.map Operand.number⟩ = some (lineWord ⟨m, os.map Operand.number⟩) := by
  refine assembleLine_of_wellFormed ?_
  simpa [SourceLine.wellFormed, Mnemonic.accepts, hm, hlen] using hos

/-- The byte of an operand that is a number. -/
theorem toNat_operandByte_numbers (m : Mnemonic) (os : List Nat) (k : Nat) :
    (operandByte ⟨m, os.map .number⟩ k).toNat = os.getD k 0 % 256 := by
  simp [operandByte, operandValue, Operand.value, Function.comp_def]

/-- HR_CHAR takes a quoted character as its code. -/
theorem assembleLine_quoted (c : Nat) : assembleLine ⟨.hrChar, [.quoted c]⟩ = assembleLine ⟨.hrChar, [.number c]⟩ := by
  have hwf : SourceLine.wellFormed ⟨.hrChar, [.quoted c]⟩ = SourceLine.wellFormed ⟨.hrChar, [.number c]⟩ := by
    simp [SourceLine.wellFormed, Mnemonic.accepts]
  rw [assembleLine, assembleLine, hwf]
  rfl

/-- The operands a form does not take (R48). -/
theorem accepts_eq_false_iff (m : Mnemonic) (o : Operand) :
    m.accepts o = false ↔
      (∃ n, .number n = o ∧ (if m = .word then 2 ^ 32 else 256) ≤ n) ∨
      ∃ c, .quoted c = o ∧ (m ≠ .hrChar ∨ 256 ≤ c) := by
  cases o with
  | number n => simp [Mnemonic.accepts]
  | quoted c => simp [Mnemonic.accepts, imp_iff_not_or]

/-- What makes a line ill formed (R48). -/
theorem wellFormed_eq_false_iff (l : SourceLine) :
    l.wellFormed = false ↔ l.operands.length ≠ l.mnemonic.arity ∨ ∃ o ∈ l.operands, l.mnemonic.accepts o = false := by
  simp [SourceLine.wellFormed, imp_iff_not_or]

/-- Settles O7: the lines of the forms are well formed and their words are those of the encoder; the lines that are not well
formed, operand by operand, are the errors listed. -/
theorem assemblerForms : Obligations.AssemblerForms := by
  refine ⟨?_, ?_, ?_⟩
  · intro a b c ha hb hc word
    have form {m : Mnemonic} {os : List Nat} {n : Nat} (hm : m ≠ .word) (hlen : os.length = m.arity)
        (hos : ∀ v ∈ os, v < 256) (hn : (lineWord ⟨m, os.map .number⟩).toNat = n) : word m os = some n := by
      simp only [word, assembleLine_bytes hm hlen hos, Option.map_some, hn]
    refine ⟨?_, ?_, ?_, ?_, ?_, ?_, ?_, ?_, ?_, ?_, ?quoted, ?_⟩
    case' quoted => rw [assembleLine_quoted, show [.number a] = [a].map Operand.number from rfl]
    all_goals
      refine form (by decide) rfl (by simp [ha, hb, hc]) ?_
      simp only [lineWord, encode_toNat, toNat_operandByte_numbers, List.getD_cons_zero, List.getD_cons_succ,
        Nat.mod_eq_of_lt ha, Nat.mod_eq_of_lt hb, Nat.mod_eq_of_lt hc]
  · intro w
    have hw : SourceLine.wellFormed ⟨.word, [.number w.toNat]⟩ = true := by
      simp [SourceLine.wellFormed, Mnemonic.arity, Mnemonic.accepts, w.isLt]
    rw [assembleLine_of_wellFormed hw]
    exact congrArg some (BitVec.ofNat_toNat ..)
  · intro l
    simp only [assembleLine_eq_none_iff, wellFormed_eq_false_iff, accepts_eq_false_iff]
    refine or_congr_right ⟨?_, ?_⟩
    · rintro ⟨o, ho, ⟨n, rfl, hn⟩ | ⟨c, rfl, hc⟩⟩
      · exact .inl ⟨n, ho, hn⟩
      · exact .inr ⟨c, ho, hc⟩
    · rintro (⟨n, ho, hn⟩ | ⟨c, ho, hc⟩)
      · exact ⟨_, ho, .inl ⟨n, rfl, hn⟩⟩
      · exact ⟨_, ho, .inr ⟨c, rfl, hc⟩⟩

/-! ## Text -/

/-- A list of lines is an assembly error exactly when one of them is (R48). -/
theorem assembleLines_eq_none_iff (lines : List (List Char)) : assembleLines lines = none ↔
    ∃ t ∈ lines, parseLine t = .error ∨ ∃ l, parseLine t = .line l ∧ assembleLine l = none := by
  induction lines with
  | nil => simp [assembleLines]
  | cons t ts ih =>
    rw [assembleLines, List.exists_mem_cons_iff, ← ih]
    cases parseLine t <;> cases assembleLines ts <;> simp

/-- The mnemonics of R48 and their spelling. -/
def spelling : List (String × Mnemonic) :=
  [("ENC3", .enc3), ("DEC3", .dec3), ("SEQ_ENC", .seqEnc), ("SEQ_DEC", .seqDec), ("TS_WR", .tsWr), ("TS_RD", .tsRd),
    ("PS_WR", .psWr), ("PS_RD", .psRd), ("HR_START", .hrStart), ("HR_CHAR", .hrChar), ("RAND", .rand), (".word", .word)]

theorem plainToken_of_mem_spelling : ∀ f ∈ spelling, PlainToken f.1.toList := by
  simp [spelling, PlainToken]

theorem mnemonicOf_of_mem_spelling : ∀ f ∈ spelling, mnemonicOf f.1.toList = some f.2 := by
  decide

/-- A first word that is none of the spellings is no mnemonic. -/
theorem mnemonicOf_eq_none {name : List Char} (h : ∀ f ∈ spelling, f.1.toList ≠ name) : mnemonicOf name = none := by
  simp only [spelling, List.forall_mem_cons, ne_comm (b := name)] at h
  simp_all [mnemonicOf]

/-- Whether a character is in a list, by the codes. -/
theorem mem_iff_toNat_mem (c : Char) (l : List Char) : c ∈ l ↔ c.toNat ∈ l.map Char.toNat :=
  (List.mem_map_of_injective fun _ _ => Char.toNat_inj.1).symm

theorem decimalDigit_isSome_iff (c : Char) : (decimalDigit c).isSome = true ↔ c ∈ "0123456789".toList := by
  rw [mem_iff_toNat_mem, show "0123456789".toList.map Char.toNat = List.range' 48 10 by decide, List.mem_range'_1,
    decimalDigit]
  split <;> simp <;> omega

theorem hexDigit_isSome_iff (c : Char) : (hexDigit c).isSome = true ↔ c ∈ "0123456789ABCDEFabcdef".toList := by
  rw [mem_iff_toNat_mem, show "0123456789ABCDEFabcdef".toList.map Char.toNat =
    List.range' 48 10 ++ List.range' 65 6 ++ List.range' 97 6 by decide]
  simp only [List.mem_append, List.mem_range'_1, hexDigit]
  split_ifs <;> simp <;> omega

/-- A line of a mnemonic and operands between `", "` is read as these, and is an error when an operand cannot be read. -/
theorem parseLine_spelling {f : String × Mnemonic} {operands : List (List Char)} (hf : f ∈ spelling)
    (ho : ∀ t ∈ operands, PlainToken t) :
    parseLine (f.1.toList ++ ' ' :: List.intercalate [',', ' '] operands) =
      (operandsOf operands).elim .error fun os => .line ⟨f.2, os⟩ := by
  rw [parseLine_line (plainToken_of_mem_spelling f hf) ho, mnemonicOf_of_mem_spelling f hf]
  cases operandsOf operands <;> rfl

/-- Operands that are each read make a line of what each is read as. -/
theorem parseLine_spelling_map {α : Type} {f : String × Mnemonic} {g : α → List Char} {o : α → Operand} (hf : f ∈ spelling)
    (hg : ∀ v, PlainToken (g v) ∧ operandOf (g v) = some (o v)) (vs : List α) :
    parseLine (f.1.toList ++ ' ' :: List.intercalate [',', ' '] (vs.map g)) = .line ⟨f.2, vs.map o⟩ := by
  rw [parseLine_spelling hf (List.forall_mem_map.2 fun v _ => (hg v).1), operandsOf_map hg]
  rfl

/-- Such a line is an error exactly when an operand cannot be read. -/
theorem parseLine_spelling_eq_error_iff {f : String × Mnemonic} {operands : List (List Char)} (hf : f ∈ spelling)
    (ho : ∀ t ∈ operands, PlainToken t) :
    parseLine (f.1.toList ++ ' ' :: List.intercalate [',', ' '] operands) = .error ↔
      ∃ t ∈ operands, ¬ (operandOf t).isSome = true := by
  have hsome := operandsOf_isSome ho
  rw [parseLine_spelling hf ho, ← not_iff_not]
  push Not
  rw [← hsome]
  cases operandsOf operands <;> simp

/-- A token is read as an operand exactly when it is spelled as one (R48). -/
theorem operandOf_token_isSome_iff {t : List Char} (ht : PlainToken t) :
    (operandOf t).isSome = true ↔
      (∀ c ∈ t, c ∈ "0123456789".toList) ∨
        ∃ h, t = '0' :: 'x' :: h ∧ h ≠ [] ∧ ∀ c ∈ h, c ∈ "0123456789ABCDEFabcdef".toList := by
  simp only [operandOf_token_isSome ht, decimalDigit_isSome_iff, hexDigit_isSome_iff]

/-- Settles O50: what a line of tokens is read as, with the spellings of mnemonics and digits; a quoted character, which is
no token, by running the reader, which passes over it without looking at it. -/
theorem assemblerText : Obligations.AssemblerText := by
  refine ⟨assembleLines_eq_none_iff, ?_, ?_, ?_, ?_, fun c => rfl⟩
  · intro name operands hname hops hforms
    simp only [parseLine_line hname hops, mnemonicOf_eq_none hforms]
  · intro f hf
    rw [parseLine_name (plainToken_of_mem_spelling f hf), mnemonicOf_of_mem_spelling f hf]
  · intro f hf operands hops
    rw [parseLine_spelling_eq_error_iff hf hops]
    exact exists_congr fun t => and_congr_right fun ht => not_congr (operandOf_token_isSome_iff (hops t ht))
  · intro f hf values
    refine ⟨parseLine_spelling_map hf operandOf_decimal values, parseLine_spelling_map hf (fun v => ?_) values,
      parseLine_spelling_map hf (operandOf_hexadecimal Char.toUpper (by decide)) values⟩
    simpa using operandOf_hexadecimal id (by decide) v

/-- Settles O51: a comment is stripped before anything is read, and the reader passes over a quoted character without looking
at it, so that a line with one is read by running the reader. -/
theorem assemblerCommentsAndBlankLines : Obligations.AssemblerCommentsAndBlankLines := by
  refine ⟨?_, fun c comment => rfl, ?_, ?_⟩
  · intro text comment hq hs
    exact parseLine_comment comment fun c hc => ⟨ne_of_mem_of_not_mem hc hq, ne_of_mem_of_not_mem hc hs⟩
  · intro text h
    have hblank : ∀ c ∈ text, isBlankChar c = true := fun c hc => by simpa [isBlankChar, or_assoc] using h c hc
    have hmark : ∀ c ∈ text, c ≠ '\'' ∧ c ≠ ';' := fun c hc =>
      ⟨ne_of_mem_of_not_mem (h c hc) (by decide), ne_of_mem_of_not_mem (h c hc) (by decide)⟩
    exact ⟨parseLine_blank hblank, fun comment => (parseLine_comment comment hmark).trans (parseLine_blank hblank)⟩
  · intro t ts
    constructor
    · intro ht
      rw [assembleLines, ht]
      cases assembleLines ts <;> rfl
    · intro l w ws ht hl hts
      simp only [assembleLines, ht, hts, hl, Option.map_some]

end Sys2Proof.Machine
end

section
/-! SUPPORT. The elementary packer on trytes and bytes as numbers: where `enc` and `dec` undo each other, the bytes of a pair
in RES, and how a word given as a number or with a reserved bit set is read. -/

namespace Sys2Proof.Machine

/-! ## Words -/

/-- A word with the number of a command's encoding is that command (R48). -/
theorem decode_of_toNat_eq {w : Word} {i : Instr} (h : w.toNat = (encode i).toNat) : decode w = .command i :=
  BitVec.eq_of_toNat_eq h ▸ decodeOfEncode i

/-- With a legal opcode and a reserved bit set, a word raises `Error(2)` and has no other effect (R45). -/
theorem runWord_raises_reservedField {w : Word} {f : Format} (s : State) (hf : opFormat (w.toNat / 2 ^ 28) = some f)
    (hr : ¬ reservedZero f w = true) : RaisesError 2 (runWord w s) s := by
  obtain ⟨i, -, -, hd⟩ := decode_of_opFormat hf
  rw [runWord_of_reservedField s (hd.trans (if_neg hr))]
  exact raisesError_raiseError .reservedField s

/-- The two bytes of a packed-pair in RES (R52). -/
theorem pairWord_bytes (b : Byte × Byte) :
    (pairWord b).extractLsb' 0 8 = b.1 ∧ (pairWord b).extractLsb' 8 8 = b.2 := by
  change fieldA (pairWord b) = b.1 ∧ fieldB (pairWord b) = b.2
  simp only [BitVec.toNat_eq, fieldA_toNat, fieldB_toNat, pairWord_toNat]
  omega

/-! ## The two commands -/

theorem exec_enc3 (t0 t1 t2 : Byte) (s : State) :
    exec (.enc3 t0 t1 t2) s = .next (writeRes (pairWord (enc s.cfg .enc3 t0 t1 t2)) s) := rfl

theorem exec_dec3 (b0 b1 : Byte) (s : State) :
    exec (.dec3 b0 b1) s = .next (writeRes (tripleWord (dec b0 b1)) s) := rfl

/-! ## `enc` and `dec` -/

/-- On in-range trytes `enc` is the exact sums of R50, in either mode: neither reaches 256. -/
theorem enc_toNat_of_inRange (c : Config) (k : EncCall) {t0 t1 t2 : Byte}
    (h : t0.toNat ≤ 26 ∧ t1.toNat ≤ 26 ∧ t2.toNat ≤ 26) :
    (enc c k t0 t1 t2).1.toNat = t0.toNat + 27 * (t2.toNat % 3) ∧
      (enc c k t0 t1 t2).2.toNat = t1.toNat + 27 * (t2.toNat / 3) := by
  obtain ⟨he0, he1⟩ := encWrap_toNat t0 t1 t2
  rw [Nat.mod_eq_of_lt (by omega)] at he0 he1
  rw [enc_eq_encWrap (.inr h)]
  exact ⟨he0, he1⟩

/-- In-range trytes encode into the nominal rectangle, in either mode (R55). -/
theorem enc_nominal (c : Config) (k : EncCall) {t0 t1 t2 : Byte}
    (h : t0.toNat ≤ 26 ∧ t1.toNat ≤ 26 ∧ t2.toNat ≤ 26) :
    (enc c k t0 t1 t2).1.toNat ≤ 80 ∧ (enc c k t0 t1 t2).2.toNat ≤ 242 := by
  have := enc_toNat_of_inRange c k h
  omega

/-- In-range trytes survive encoding and decoding, in either mode (R54). -/
theorem dec_enc (c : Config) (k : EncCall) {t0 t1 t2 : Byte}
    (h : t0.toNat ≤ 26 ∧ t1.toNat ≤ 26 ∧ t2.toNat ≤ 26) :
    dec (enc c k t0 t1 t2).1 (enc c k t0 t1 t2).2 = (t0, t1, t2) := by
  obtain ⟨he0, he1⟩ := enc_toNat_of_inRange c k h
  obtain ⟨hd0, hd1, hd2⟩ := dec_toNat (enc c k t0 t1 t2).1 (enc c k t0 t1 t2).2
  simp only [Prod.ext_iff, BitVec.toNat_eq, hd0, hd1, hd2, he0, he1]
  omega

/-- Every pair decodes to two trytes in range and a third of at most 36 (R51). -/
theorem dec_le (b0 b1 : Byte) :
    (dec b0 b1).1.toNat ≤ 26 ∧ (dec b0 b1).2.1.toNat ≤ 26 ∧ (dec b0 b1).2.2.toNat ≤ 36 := by
  have := dec_toNat b0 b1
  omega

/-- A nominal pair decodes to in-range trytes (R55). -/
theorem dec_inRange {b0 b1 : Byte} (h0 : b0.toNat ≤ 80) (h1 : b1.toNat ≤ 242) :
    (dec b0 b1).1.toNat ≤ 26 ∧ (dec b0 b1).2.1.toNat ≤ 26 ∧ (dec b0 b1).2.2.toNat ≤ 26 := by
  have := dec_toNat b0 b1
  omega

/-- The wrap value of a decoded pair is the pair again exactly when the first byte's quotient by 27 is below 3: a larger one
leaves only its remainder by 3 in the first byte (R56). -/
theorem encWrap_dec_iff (b0 b1 : Byte) :
    encWrap (dec b0 b1).1 (dec b0 b1).2.1 (dec b0 b1).2.2 = (b0, b1) ↔ b0.toNat ≤ 80 := by
  obtain ⟨hd0, hd1, hd2⟩ := dec_toNat b0 b1
  obtain ⟨he0, he1⟩ := encWrap_toNat (dec b0 b1).1 (dec b0 b1).2.1 (dec b0 b1).2.2
  rw [hd0, hd2, Nat.add_mul_mod_self_left, Nat.mod_eq_of_lt (by omega)] at he0
  rw [hd1, hd2, Nat.add_mul_div_left _ _ (by decide)] at he1
  simp only [Prod.ext_iff, BitVec.toNat_eq, he0, he1]
  constructor
  · rintro ⟨hfirst, -⟩
    omega
  · intro h
    have hquot : b0.toNat / 27 / 3 = 0 := by omega
    omega

end Sys2Proof.Machine
end

section
/-! PROOF. The elementary packer's statements (R50 to R56), and the printed words of the spec's vectors. -/

namespace Sys2Proof.Machine

/-- Settles O11: ENC3 writes the pair of `enc` to RES, which reads the parameters and the operands only. -/
theorem encTripleCommand : Obligations.EncTripleCommand := by
  refine ⟨fun s t0 t1 t2 => ⟨_, exec_enc3 t0 t1 t2 s, rfl, ?_, fun h => ?_⟩, ?_, ?_, ?_⟩
  · rw [writeRes_res, pairWord_toNat]
    omega
  · obtain ⟨he0, he1⟩ := encWrap_toNat t0 t1 t2
    rw [writeRes_res, pairWord_toNat, enc_eq_encWrap h, he0, he1]
    omega
  · intro s u v w t0 t1 t2 hcfg hv hw
    obtain rfl := Host.Outcome.next.inj hv
    obtain rfl := Host.Outcome.next.inj hw
    rw [writeRes_res, writeRes_res, hcfg]
  · intro w t0 t1 t2 h
    exact decode_of_toNat_eq (by simp only [encode_toNat]; omega)
  · intro w s hop hr
    exact runWord_raises_reservedField (f := .t) s (by rw [hop]; rfl) (mt (reservedZero_iff .t w).1 hr)

/-- Settles O12: DEC3 writes the triple of `dec` to RES. -/
theorem decPairCommand : Obligations.DecPairCommand := by
  refine ⟨fun s b0 b1 => ⟨_, exec_dec3 b0 b1 s, rfl, ?_⟩, ?_, ?_⟩
  · obtain ⟨hd0, hd1, hd2⟩ := dec_toNat b0 b1
    rw [writeRes_res, tripleWord_toNat, hd0, hd1, hd2]
    omega
  · intro w b0 b1 h
    exact decode_of_toNat_eq (by simp only [encode_toNat]; omega)
  · intro w s hop hr
    exact runWord_raises_reservedField (f := .p) s (by rw [hop]; rfl) (mt (reservedZero_iff .p w).1 hr)

/-- Settles O13: the two bytes of RES are the encoded pair, which `dec` undoes. -/
theorem encThenDecRestoresTheTriple : Obligations.EncThenDecRestoresTheTriple := by
  intro s t0 t1 t2 h0 h1 h2
  refine ⟨_, _, exec_enc3 t0 t1 t2 s, exec_dec3 _ _ _, ?_⟩
  obtain ⟨hlow, hhigh⟩ := pairWord_bytes (enc s.cfg .enc3 t0 t1 t2)
  rw [writeRes_res, writeRes_res, hlow, hhigh, dec_enc _ _ ⟨h0, h1, h2⟩, tripleWord_toNat]

/-- Settles O14: each function maps into the other's domain and is undone by the other there, where the modes agree. -/
theorem encIsABijectionOntoTheNominalRectangle : Obligations.EncIsABijectionOntoTheNominalRectangle := by
  intro c k
  constructor
  · intro t0 t1 t2 h0 h1 h2
    obtain ⟨hlow, hhigh⟩ := enc_nominal c k ⟨h0, h1, h2⟩
    exact ⟨hlow, hhigh, dec_enc c k ⟨h0, h1, h2⟩⟩
  · intro b0 b1 h0 h1
    obtain ⟨hd0, hd1, hd2⟩ := dec_inRange h0 h1
    exact ⟨hd0, hd1, hd2, (enc_eq_encWrap (.inr ⟨hd0, hd1, hd2⟩)).trans ((encWrap_dec_iff b0 b1).2 h0)⟩

/-- Settles O15: the bounds of `dec`, and in wrap mode the pairs the wrap value gives back. -/
theorem decOutsideTheNominalRectangle : Obligations.DecOutsideTheNominalRectangle := by
  intro c k b0 b1
  obtain ⟨hd0, hd1, hd2⟩ := dec_le b0 b1
  refine ⟨hd0, hd1, hd2, fun hmode => ?_⟩
  rw [enc_eq_encWrap (.inl hmode)]
  exact encWrap_dec_iff b0 b1

/-- Settles O6: seven of the words are the encodings of their commands, one has no legal opcode, and one a legal opcode with
a reserved bit set. -/
theorem sampleWordsDecode : Obligations.SampleWordsDecode :=
  ⟨decode_of_toNat_eq rfl, decode_of_toNat_eq rfl, decode_of_toNat_eq rfl, decode_of_toNat_eq rfl, decode_of_toNat_eq rfl,
    decode_of_toNat_eq rfl, decode_of_toNat_eq rfl, decode_of_opFormat_none rfl, by decide⟩

end Sys2Proof.Machine
end

section
/-! SUPPORT. The sequence codec as rules: what SEQ_ENC and SEQ_DEC write, group by group, when a flattened sequence is a
given array, the host's FROM_TRYTE_ARRAY as a run, and the parameters and reset record no step changes. -/

namespace Sys2Proof.Machine

/-! ## The two commands -/

theorem exec_seqEnc (s : State) :
    exec .seqEnc s = .next (fillPs (flattenPairs (encGroup s) s.cfg.groups) s) := rfl

theorem exec_seqDec (s : State) :
    exec .seqDec s = .next (fillTs (flattenTriples (decGroup s) s.cfg.groups) s) := rfl

/-- A word with the opcode of an N-format command and a 1 in another bit raises `Error(2)` (R41, R45). -/
theorem runWord_raises_reservedField_n {w : Word} {op : Nat} (s : State) (hf : opFormat op = some .n)
    (hop : w.toNat / 2 ^ 28 = op) (hr : w.toNat % 2 ^ 28 ≠ 0) : RaisesError 2 (runWord w s) s :=
  runWord_raises_reservedField s (hop ▸ hf) (mt (reservedZero_iff .n w).1 hr)

/-! ## Groups of the arrays -/

theorem readTs_congr {k : Nat} {s u : State} (h : s.ts[k]? = u.ts[k]?) : readTs k s = readTs k u := by
  simp only [readTs, List.getD_eq_getElem?_getD, h]

/-- Group `i` of a `TS` of full length (R12). -/
theorem getElem?_ts_group {s : State} {i : Nat} (hlen : s.ts.length = 3 * s.cfg.groups) (hi : i < s.cfg.groups) :
    s.ts[3 * i]? = some (readTs (3 * i) s) ∧ s.ts[3 * i + 1]? = some (readTs (3 * i + 1) s) ∧
      s.ts[3 * i + 2]? = some (readTs (3 * i + 2) s) :=
  ⟨getElem?_ts_of_lt (by omega), getElem?_ts_of_lt (by omega), getElem?_ts_of_lt (by omega)⟩

/-- Group `i` of a `PS` of full length (R14). -/
theorem getElem?_ps_group {s : State} {i : Nat} (hlen : s.ps.length = 2 * s.cfg.groups) (hi : i < s.cfg.groups) :
    s.ps[2 * i]? = some (readPs (2 * i) s) ∧ s.ps[2 * i + 1]? = some (readPs (2 * i + 1) s) :=
  ⟨getElem?_ps_of_lt (by omega), getElem?_ps_of_lt (by omega)⟩

/-- An array that has the triple `f i` in every group `i` is the flattened triples. -/
theorem flattenTriples_eq {f : Nat → Byte × Byte × Byte} {n : Nat} {l : List Byte} (hlen : l.length = 3 * n)
    (h : ∀ i < n, l[3 * i]? = some (f i).1 ∧ l[3 * i + 1]? = some (f i).2.1 ∧ l[3 * i + 2]? = some (f i).2.2) :
    flattenTriples f n = l := by
  refine List.ext_getElem? fun k => ?_
  rcases Nat.lt_or_ge k (3 * n) with hk | hk
  · obtain ⟨hf0, hf1, hf2⟩ := flattenTriples_getElem? f (n := n) (i := k / 3) (by omega)
    obtain ⟨hl0, hl1, hl2⟩ := h (k / 3) (by omega)
    obtain hpos | hpos | hpos : k = 3 * (k / 3) ∨ k = 3 * (k / 3) + 1 ∨ k = 3 * (k / 3) + 2 := by omega
    · rw [hpos, hf0, hl0]
    · rw [hpos, hf1, hl1]
    · rw [hpos, hf2, hl2]
  · rw [List.getElem?_eq_none (by simpa using hk), List.getElem?_eq_none (by omega)]

/-- An array that has the pair `f i` in every group `i` is the flattened pairs. -/
theorem flattenPairs_eq {f : Nat → Byte × Byte} {n : Nat} {l : List Byte} (hlen : l.length = 2 * n)
    (h : ∀ i < n, l[2 * i]? = some (f i).1 ∧ l[2 * i + 1]? = some (f i).2) : flattenPairs f n = l := by
  refine List.ext_getElem? fun k => ?_
  rcases Nat.lt_or_ge k (2 * n) with hk | hk
  · obtain ⟨hf0, hf1⟩ := flattenPairs_getElem? f (n := n) (i := k / 2) (by omega)
    obtain ⟨hl0, hl1⟩ := h (k / 2) (by omega)
    obtain hpos | hpos : k = 2 * (k / 2) ∨ k = 2 * (k / 2) + 1 := by omega
    · rw [hpos, hf0, hl0]
    · rw [hpos, hf1, hl1]
  · rw [List.getElem?_eq_none (by simpa using hk), List.getElem?_eq_none (by omega)]

/-- What `dec` gives for a group of a `PS` of flattened pairs is that of the group's pair (R58). -/
theorem decGroup_fillPs_flattenPairs (f : Nat → Byte × Byte) {n i : Nat} (s : State) (hi : i < n) :
    decGroup (fillPs (flattenPairs f n) s) i = dec (f i).1 (f i).2 := by
  obtain ⟨h0, h1⟩ := flattenPairs_getElem? f hi
  rw [decGroup, readPs_eq_of_getElem? (by exact h0), readPs_eq_of_getElem? (by exact h1)]

/-- What `enc` gives for a group of a `TS` of flattened triples is that of the group's triple (R57). -/
theorem encGroup_fillTs_flattenTriples (f : Nat → Byte × Byte × Byte) {n i : Nat} (s : State) (hi : i < n) :
    encGroup (fillTs (flattenTriples f n) s) i = enc s.cfg (.group i) (f i).1 (f i).2.1 (f i).2.2 := by
  obtain ⟨h0, h1, h2⟩ := flattenTriples_getElem? f hi
  rw [encGroup, readTs_eq_of_getElem? (by exact h0), readTs_eq_of_getElem? (by exact h1),
    readTs_eq_of_getElem? (by exact h2), fillTs_cfg]

/-! ## Encoding and decoding a whole sequence -/

/-- A read of `TS` gives one of its elements, or 0 beyond it (log entry 9). -/
theorem readTs_mem_or_eq_zero (k : Nat) (s : State) : readTs k s ∈ s.ts ∨ readTs k s = 0#8 := by
  rcases Nat.lt_or_ge k s.ts.length with hk | hk
  · exact .inl (List.mem_of_getElem? (getElem?_ts_of_lt hk))
  · exact .inr (List.getD_eq_default _ _ hk)

theorem readTs_le {s : State} (h : TsInRange s) (k : Nat) : (readTs k s).toNat ≤ 26 := by
  obtain hmem | hzero := readTs_mem_or_eq_zero k s
  · exact h _ hmem
  · simp [hzero]

/-- Decoding the encoded groups of an in-range `TS` gives `TS`, in either mode (R59). -/
theorem flattenTriples_decGroup_encGroup {s : State} (hlen : s.ts.length = 3 * s.cfg.groups) (hrange : TsInRange s) :
    flattenTriples (decGroup (fillPs (flattenPairs (encGroup s) s.cfg.groups) s)) s.cfg.groups = s.ts := by
  refine flattenTriples_eq hlen fun i hi => ?_
  rw [decGroup_fillPs_flattenPairs _ _ hi, encGroup,
    dec_enc _ _ ⟨readTs_le hrange _, readTs_le hrange _, readTs_le hrange _⟩]
  exact getElem?_ts_group hlen hi

/-- Encoding a decoded nominal pair of `PS` gives the pair, in either mode (R62). -/
theorem encGroup_fillTs_decGroup {s : State} {i : Nat} (hi : i < s.cfg.groups) (h0 : (readPs (2 * i) s).toNat ≤ 80)
    (h1 : (readPs (2 * i + 1) s).toNat ≤ 242) :
    encGroup (fillTs (flattenTriples (decGroup s) s.cfg.groups) s) i = (readPs (2 * i) s, readPs (2 * i + 1) s) := by
  rw [encGroup_fillTs_flattenTriples _ _ hi, decGroup, enc_eq_encWrap (.inr (dec_inRange h0 h1))]
  exact (encWrap_dec_iff _ _).2 h0

/-- A group of zeros encodes to a pair of zeros, in either mode (R61). -/
theorem encGroup_of_zero {s : State} (h : ∀ v ∈ s.ts, v = 0#8) (i : Nat) : encGroup s i = (0#8, 0#8) := by
  have hread (k : Nat) : readTs k s = 0#8 := (readTs_mem_or_eq_zero k s).elim (h _) id
  rw [encGroup, hread, hread, hread, enc_eq_encWrap (.inr (by decide))]
  rfl

/-! ## The host's FROM_TRYTE_ARRAY -/

/-- With a command's word next, a step is the command in the state past it. -/
theorem step_of_present {s : State} {i : Instr} {rest : List HostAction} (hw : s.wasReset = true)
    (hs : s.script = present i :: rest) : step s = exec i (countCommand (dropAction rest s)) :=
  (step_of_command hw hs).trans (runWord_of_command _ (decodeOfEncode i))

@[simp] theorem writeElements_length (write : Byte → Byte → Instr) (k : Nat) (l : List Byte) :
    (writeElements write k l).length = l.length := by
  induction l generalizing k with
  | nil => rfl
  | cons v vs ih => simp [writeElements, ih]

/-- The writes of `l` from index `k` to the end of `TS` keep what stands below `k` and put `l` above it; `3L` indices fit
the IDX field (R7, R49, R72). -/
theorem stepMany_writeElements_tsWr {s : State} {k : Nat} {l : List Byte} {rest : List HostAction}
    (hw : s.wasReset = true) (hsize : tsSize s ≤ 256) (hts : s.ts.length = tsSize s) (hk : k + l.length = tsSize s)
    (hs : s.script = writeElements Instr.tsWr k l ++ rest) :
    stepMany l.length s = .next { s with ts := s.ts.take k ++ l, script := rest, pos := s.pos + l.length } := by
  induction l generalizing s k with
  | nil =>
    obtain rfl : k = s.ts.length := by simpa [hts] using hk
    obtain rfl : s.script = rest := hs
    simp [stepMany]
  | cons v vs ih =>
    rw [List.length_cons] at hk ⊢
    have hidx : (BitVec.ofNat 8 k).toNat = k := Nat.mod_eq_of_lt (by omega)
    have hstep := (step_of_present hw hs).trans (exec_tsWr_of_lt v (by rw [hidx]; exact (by omega : k < tsSize s)))
    rw [hidx] at hstep
    have hrest : k + 1 + vs.length = tsSize s := by omega
    have htake : (s.ts.set k v).take (k + 1) = s.ts.take k ++ [v] := by
      rw [List.take_add_one, List.take_set_of_le (Nat.le_refl k), List.getElem?_set_self (by omega)]
      rfl
    rw [stepMany_succ hstep]
    refine (ih (s := writeTs k v (countCommand (dropAction (writeElements Instr.tsWr (k + 1) vs ++ rest) s)))
      hw hsize (by simpa using hts) hrest rfl).trans ?_
    simp [htake, Nat.add_assoc, Nat.add_comm 1]

/-- FROM_TRYTE_ARRAY from a legal state after a reset leaves `TS` the array and the rest of the block as it was (R49). -/
theorem stepMany_fromTryteArray {s : State} {raw : List Byte} {acts rest : List HostAction} (hlegal : Legal s)
    (hw : s.wasReset = true) (hacts : expandPseudo s.cfg.groups (.fromTryteArray raw) = some acts)
    (hs : s.script = acts ++ rest) :
    stepMany acts.length s = .next { s with ts := raw, script := rest, pos := s.pos + 3 * s.cfg.groups } := by
  obtain ⟨hcfg, hts, -⟩ := hlegal
  obtain ⟨hlen, hacts⟩ := Option.ite_none_right_eq_some.1 hacts
  obtain rfl := Option.some.inj hacts
  simp only [Config.wellFormed, Bool.and_eq_true, decide_eq_true_eq] at hcfg
  have hsize : tsSize s ≤ 256 := by simp only [tsSize]; omega
  rw [writeElements_length, stepMany_writeElements_tsWr hw hsize hts ((Nat.zero_add _).trans hlen) hs, hlen]
  rfl

/-! ## What no step changes -/

/-- No command changes the parameters of R7 or the reset record (R5, R98). -/
theorem exec_keeps_cfg_and_wasReset {i : Instr} {s t : State} (h : exec i s = .next t) :
    t.cfg = s.cfg ∧ t.wasReset = s.wasReset := by
  cases i with
  | tsWr _ _ | tsRd _ => obtain rfl | rfl := ifTsIndex_cases (Host.Outcome.next.inj h) <;> exact ⟨rfl, rfl⟩
  | psWr _ _ | psRd _ => obtain rfl | rfl := ifPsIndex_cases (Host.Outcome.next.inj h) <;> exact ⟨rfl, rfl⟩
  | hrChar ch => obtain rfl | rfl := exec_hrChar_cases h <;> exact ⟨rfl, rfl⟩
  | enc3 _ _ _ | dec3 _ _ | seqEnc | seqDec | hrStart | rand =>
    obtain rfl := Host.Outcome.next.inj h
    exact ⟨rfl, rfl⟩

/-- Nor does any word on the command port. -/
theorem runWord_keeps_cfg_and_wasReset {w : Word} {s t : State} (h : runWord w s = .next t) :
    t.cfg = s.cfg ∧ t.wasReset = s.wasReset := by
  cases hd : decode w with
  | command i => exact exec_keeps_cfg_and_wasReset ((runWord_of_command s hd).symm.trans h)
  | illegalOpcode =>
    obtain rfl := Host.Outcome.next.inj ((runWord_of_illegalOpcode s hd).symm.trans h)
    exact ⟨rfl, rfl⟩
  | reservedField =>
    obtain rfl := Host.Outcome.next.inj ((runWord_of_reservedField s hd).symm.trans h)
    exact ⟨rfl, rfl⟩

/-- No step changes the parameters of R7, and none undoes the first reset (R5, R98). -/
theorem step_keeps_cfg_and_wasReset {s t : State} (h : step s = .next t) :
    t.cfg = s.cfg ∧ (s.wasReset = true → t.wasReset = true) := by
  obtain ⟨-, rfl⟩ | ⟨rest, -, rfl⟩ | ⟨rest, -, -, rfl⟩ | ⟨rest, -, -, rfl⟩ | ⟨w, rest, -, -, hrun⟩ := step_cases h
  · exact ⟨rfl, id⟩
  · exact ⟨rfl, fun _ => rfl⟩
  · exact ⟨rfl, id⟩
  · exact ⟨rfl, id⟩
  · obtain ⟨hcfg, hreset⟩ := runWord_keeps_cfg_and_wasReset hrun
    exact ⟨hcfg, hreset.trans⟩

end Sys2Proof.Machine
end

section
/-! PROOF. The sequence codec's statements (R57 to R62), and the parameters and lengths no step changes. -/

namespace Sys2Proof.Machine

/-- Settles O16: SEQ_ENC flattens the encoded groups into PS, and a group encodes by the parameters and its own trytes. -/
theorem sequenceEncodeCommand : Obligations.SequenceEncodeCommand := by
  refine ⟨fun s ⟨_, hts, _⟩ => ⟨_, exec_seqEnc s, rfl, rfl, flattenPairs_length .., fun i hi => ?_⟩, ?_,
    decode_of_toNat_eq rfl, fun w s => runWord_raises_reservedField_n s rfl⟩
  · obtain ⟨ht0, ht1, ht2⟩ := getElem?_ts_group hts hi
    obtain ⟨hp0, hp1⟩ := flattenPairs_getElem? (encGroup s) hi
    refine ⟨_, _, _, _, _, ht0, ht1, ht2, hp0, hp1, fun h => ?_⟩
    rw [encGroup, enc_eq_encWrap h]
    exact encWrap_toNat ..
  · intro s u v w hcfg hv hw i hi h0 h1 h2
    obtain rfl := Host.Outcome.next.inj hv
    obtain rfl := Host.Outcome.next.inj hw
    obtain ⟨hs0, hs1⟩ := flattenPairs_getElem? (encGroup s) hi
    obtain ⟨hu0, hu1⟩ := flattenPairs_getElem? (encGroup u) (hcfg ▸ hi)
    rw [fillPs_ps, fillPs_ps, hs0, hs1, hu0, hu1,
      encGroup_congr hcfg (readTs_congr h0) (readTs_congr h1) (readTs_congr h2)]
    exact ⟨rfl, rfl⟩

/-- Settles O17: SEQ_DEC flattens the decoded groups into TS. -/
theorem sequenceDecodeCommand : Obligations.SequenceDecodeCommand := by
  refine ⟨fun s ⟨_, _, hps, _⟩ => ⟨_, exec_seqDec s, rfl, flattenTriples_length .., fun i hi => ?_⟩,
    decode_of_toNat_eq rfl, fun w s => runWord_raises_reservedField_n s rfl⟩
  obtain ⟨hp0, hp1⟩ := getElem?_ps_group hps hi
  obtain ⟨ht0, ht1, ht2⟩ := flattenTriples_getElem? (decGroup s) hi
  exact ⟨_, _, _, _, _, hp0, hp1, ht0, ht1, ht2, dec_toNat ..⟩

/-- Settles O18: the array is stored as it is, then encoded and decoded, which gives an in-range array back. -/
theorem sequenceRoundTrip : Obligations.SequenceRoundTrip := by
  intro s raw acts rest hlegal hw hrange hacts hs
  rw [List.append_assoc] at hs
  have hload := stepMany_fromTryteArray hlegal hw hacts hs
  have hlen : raw.length = 3 * s.cfg.groups := (Option.ite_none_right_eq_some.1 hacts).1
  rw [stepMany_add 2 hload, stepMany_succ ((step_of_present (by exact hw) rfl).trans (exec_seqEnc _)),
    stepMany_succ ((step_of_present (by exact hw) rfl).trans (exec_seqDec _))]
  have hback := flattenTriples_decGroup_encGroup (s := { s with ts := raw }) hlen hrange
  exact ⟨_, rfl, (congrArg (fillTs · _) hback).trans rfl⟩

/-- Settles O19: zeros encode to zeros, and an in-range TS survives encoding and decoding. -/
theorem allZeroSequenceEncodesToAllZero : Obligations.AllZeroSequenceEncodesToAllZero := by
  intro s ⟨_, hts, _⟩ hzero
  have hrange : TsInRange s := fun v hv => by simp [hzero v hv]
  refine ⟨_, _, exec_seqEnc s, fun b hb => ?_, flattenPairs_length .., exec_seqDec _,
    flattenTriples_decGroup_encGroup hts hrange⟩
  obtain ⟨i, -, hb⟩ := List.mem_flatMap.1 hb
  simpa [encGroup_of_zero hzero] using hb

/-- Settles O20: a decoded nominal pair encodes to itself in its own group, whatever the other groups are. -/
theorem decodeThenEncodeKeepsNominalPairs : Obligations.DecodeThenEncodeKeepsNominalPairs := by
  intro s ⟨_, _, hps, _⟩
  refine ⟨_, _, exec_seqDec s, exec_seqEnc _, fun i hi h0 h1 => ?_, fun hnominal => ?_⟩
  · obtain ⟨hv0, hv1⟩ := flattenPairs_getElem? (encGroup (fillTs (flattenTriples (decGroup s) s.cfg.groups) s)) hi
    obtain ⟨hs0, hs1⟩ := getElem?_ps_group hps hi
    rw [encGroup_fillTs_decGroup hi h0 h1] at hv0 hv1
    exact ⟨hv0.trans hs0.symm, hv1.trans hs1.symm⟩
  · refine flattenPairs_eq hps fun i hi => ?_
    obtain ⟨h0, h1⟩ := hnominal i hi
    rw [encGroup_fillTs_decGroup (by exact hi) h0 h1]
    exact getElem?_ps_group hps hi

/-- Settles O38: no step changes the parameters or undoes the first reset, after which the invariant gives the lengths. -/
theorem lengthsNeverChange : Obligations.LengthsNeverChange := by
  intro s t hinv hstep
  obtain ⟨hcfg, hreset⟩ := step_keeps_cfg_and_wasReset hstep
  refine ⟨hcfg, fun hw => ?_⟩
  obtain ⟨-, hlegal⟩ := stepKeepsInvariant s t hinv hstep
  obtain ⟨-, hts, hps, -⟩ := hlegal (hreset hw)
  rw [← hcfg]
  exact ⟨hts, hps⟩

end Sys2Proof.Machine
end

section
/-! SUPPORT. Human-readable ingress as rules: the character map as a number, what HR_START does, and the host's list of
HR_CHARs and its FROM_HUMAN_READABLE as runs. -/

namespace Sys2Proof.Machine

/-! ## The character map and the cursor's bound -/

/-- The map as a number: `c - 0x41 + 1` with wrap-around is `c + 192` modulo 256 (R63, R67). -/
theorem hr_toNat (c : Byte) : (hr c).toNat = if c.toNat = 0x39 then 0 else (c.toNat + 192) % 256 := by
  have hnine : c = 0x39#8 ↔ c.toNat = 0x39 := BitVec.toNat_eq
  by_cases h : c = 0x39#8
  · rw [hr, if_pos h, if_pos (hnine.1 h)]
    rfl
  · rw [hr, if_neg h, if_neg (mt hnine.2 h), BitVec.toNat_add, BitVec.toNat_sub]
    simp only [BitVec.toNat_ofNat]
    omega

/-- `3L` fits the 8-bit cursor (R7, R22). -/
theorem tsSize_lt {s : State} (h : s.cfg.wellFormed = true) : tsSize s < 256 := by
  simp only [Config.wellFormed, Bool.and_eq_true, decide_eq_true_eq] at h
  simp only [tsSize]
  omega

/-- A cursor below `3L` advances by 1 without wrapping (R65). -/
theorem hrc_add_one_toNat {s : State} (hsize : tsSize s < 256) (h : s.hrc.toNat < tsSize s) :
    (s.hrc + 1#8).toNat = s.hrc.toNat + 1 :=
  BitVec.toNat_add_of_lt (Nat.lt_of_le_of_lt h hsize)

/-! ## Whole strings -/

theorem exec_hrStart (s : State) :
    exec .hrStart s = .next (writeHrc 0#8 (fillTs (List.replicate (tsSize s) 0#8) s)) := rfl

/-- The elements up to a written one are those before it and the value written. -/
theorem take_succ_set_self {l : List Byte} {k : Nat} {v : Byte} (h : k < l.length) :
    (l.set k v).take (k + 1) = l.take k ++ [v] := by
  rw [List.take_add_one, List.take_set_of_le (Nat.le_refl k), List.getElem?_set_self h]
  rfl

/-- Characters given at a cursor `HRC` stand in `TS` from there on, cut at `3L`; what stands before the cursor or after the
last character stays, and the cursor stops at `3L` (R65, R68). -/
theorem stepMany_hrChars {s : State} {text : List Byte} {rest : List HostAction} (hw : s.wasReset = true)
    (hsize : tsSize s < 256) (hts : s.ts.length = tsSize s) (hcur : s.hrc.toNat ≤ tsSize s)
    (hs : s.script = text.map (fun c => present (.hrChar c)) ++ rest) :
    stepMany text.length s = .next { s with
      ts := (s.ts.take s.hrc.toNat ++ text.map hr ++ s.ts.drop (s.hrc.toNat + text.length)).take (tsSize s)
      hrc := BitVec.ofNat 8 (min (s.hrc.toNat + text.length) (tsSize s))
      script := rest
      pos := s.pos + text.length } := by
  induction text generalizing s with
  | nil =>
    obtain rfl : s.script = rest := hs
    simp [stepMany, ← hts, Nat.min_eq_left (hts ▸ hcur)]
  | cons c cs ih =>
    have hstep := step_of_present hw hs
    rcases Nat.lt_or_ge s.hrc.toNat (tsSize s) with hlt | hge
    · have hadd := hrc_add_one_toNat hsize hlt
      rw [List.length_cons, stepMany_succ (hstep.trans (exec_hrChar_of_lt c hlt))]
      refine Eq.trans (ih hw hsize (by simpa using hts) (by simpa [hadd] using hlt) rfl) ?_
      simp [hadd, take_succ_set_self (hts ▸ hlt), List.drop_set_of_lt, Nat.add_assoc, Nat.add_comm 1]
    · rw [List.length_cons, stepMany_succ (hstep.trans (exec_hrChar_of_le c hge))]
      refine Eq.trans (ih hw hsize hts hcur rfl) ?_
      have hend : s.hrc.toNat = tsSize s := Nat.le_antisymm hcur hge
      simp [hend, ← hts, Nat.add_assoc, Nat.add_comm 1]

/-- FROM_HUMAN_READABLE from a legal state after a reset: HR_START clears `TS` and the cursor, so the string stands at the
start of `TS` with zeros after it (R68, R69). -/
theorem stepMany_fromHumanReadable {s : State} {text : List Byte} {acts rest : List HostAction} (hlegal : Legal s)
    (hw : s.wasReset = true) (hacts : expandPseudo s.cfg.groups (.fromHumanReadable text) = some acts)
    (hs : s.script = acts ++ rest) :
    stepMany acts.length s = .next { s with
      ts := (text.map hr ++ List.replicate (tsSize s) 0#8).take (tsSize s)
      hrc := BitVec.ofNat 8 (min text.length (tsSize s))
      script := rest
      pos := s.pos + 1 + text.length } := by
  obtain ⟨hcfg, -⟩ := hlegal
  obtain rfl := Option.some.inj hacts
  rw [List.length_cons, List.length_map, stepMany_succ ((step_of_present hw hs).trans (exec_hrStart _))]
  refine Eq.trans (stepMany_hrChars hw (tsSize_lt hcfg) List.length_replicate (Nat.zero_le _) rfl) ?_
  simp [List.take_append, List.take_replicate]

end Sys2Proof.Machine
end

section
/-! PROOF. Human-readable ingress: the statements of 42_human_readable.md (R63 to R69). -/

namespace Sys2Proof.Machine

/-- Settles O21, by the map as a number: modulo 256, only 0x40 to 0x5A come to at most 26. -/
theorem characterMap : Obligations.CharacterMap := by
  intro c
  have hlt := c.isLt
  rw [hr_toNat]
  refine ⟨rfl, ?_, ?_⟩
  · split <;> omega
  · intro hA hZ
    rw [if_neg (by omega)]
    omega

/-- Settles O22: HR_START fills TS with zeros, and any other word of its opcode has a reserved bit set. -/
theorem stringStartCommand : Obligations.StringStartCommand :=
  ⟨fun s => ⟨_, exec_hrStart s, rfl, List.length_replicate, fun _ => List.eq_of_mem_replicate⟩,
    decode_of_toNat_eq rfl, fun _ s => runWord_raises_reservedField_n s rfl⟩

/-- Settles O23: the cursor of a legal state is below `3L`, inside `TS`, or at `3L`. -/
theorem stringCharacterCommand : Obligations.StringCharacterCommand := by
  refine ⟨fun s ch ⟨hcfg, hts, _⟩ => ?_, ?_, ?_⟩
  · rcases Nat.lt_or_ge s.hrc.toNat (tsSize s) with hlt | hge
    · refine ⟨_, exec_hrChar_of_lt ch hlt, fun _ => ?_, fun h => absurd h (Nat.ne_of_lt hlt)⟩
      exact ⟨rfl, hrc_add_one_toNat (tsSize_lt hcfg) hlt, List.length_set,
        ⟨_, List.getElem?_set_self (hts ▸ hlt), hr_toNat ch⟩, fun k hk => List.getElem?_set_ne hk.symm⟩
    · exact ⟨_, exec_hrChar_of_le ch hge, fun h => absurd h (Nat.not_lt.2 hge), fun _ => rfl⟩
  · intro w ch h
    exact decode_of_toNat_eq (h.trans (encode_toNat (.hrChar ch)).symm)
  · intro w s hop hset
    exact runWord_raises_reservedField (f := .c) s (by rw [hop]; rfl) (mt (reservedZero_iff .c w).1 hset)

/-- Settles O24, by FROM_HUMAN_READABLE as a run; `3L` fits the cursor. -/
theorem stringIsPaddedAndTruncated : Obligations.StringIsPaddedAndTruncated := by
  intro s text acts rest hlegal hw hacts hs
  refine ⟨_, stepMany_fromHumanReadable hlegal hw hacts hs, rfl, rfl, ?_⟩
  exact Nat.mod_eq_of_lt (Nat.lt_of_le_of_lt (Nat.min_le_right ..) (tsSize_lt hlegal.1))

end Sys2Proof.Machine
end

section
/-! SUPPORT. Element access as rules: what TS_RD and PS_RD do on either side of their index check, the reserved bits of the W
and R formats, and the host's lists of element reads and PS_WRs as runs. -/

namespace Sys2Proof.Machine

/-! ## The commands and their words -/

theorem exec_tsRd_of_getElem? {idx v : Byte} {s : State} (h : idx.toNat < tsSize s) (hv : s.ts[idx.toNat]? = some v) :
    exec (.tsRd idx) s = .next (writeRes (elementWord v) s) :=
  readTs_eq_of_getElem? hv ▸ congrArg Host.Outcome.next (ifTsIndex_inside h)

theorem exec_tsRd_of_le {idx : Byte} {s : State} (h : tsSize s ≤ idx.toNat) :
    exec (.tsRd idx) s = .next (raiseError .indexRange s) :=
  congrArg Host.Outcome.next (ifTsIndex_outside h)

theorem exec_psRd_of_getElem? {idx v : Byte} {s : State} (h : idx.toNat < psSize s) (hv : s.ps[idx.toNat]? = some v) :
    exec (.psRd idx) s = .next (writeRes (elementWord v) s) :=
  readPs_eq_of_getElem? hv ▸ congrArg Host.Outcome.next (ifPsIndex_inside h)

theorem exec_psRd_of_le {idx : Byte} {s : State} (h : psSize s ≤ idx.toNat) :
    exec (.psRd idx) s = .next (raiseError .indexRange s) :=
  congrArg Host.Outcome.next (ifPsIndex_outside h)

/-- A command that answers the state with `indexRange` taken has raised `Error(3)` (R71, R83). -/
theorem raisesError_three_of_exec {i : Instr} {s : State} (h : exec i s = .next (raiseError .indexRange s)) :
    RaisesError 3 (exec i s) s :=
  h ▸ raisesError_raiseError .indexRange s

/-- A word with the opcode of a W-format command and a 1 in bits 27 to 16 raises `Error(2)` (R41, R45). -/
theorem runWord_raises_reservedField_w {w : Word} {op : Nat} (s : State) (hf : opFormat op = some .w)
    (hop : w.toNat / 2 ^ 28 = op) (hr : w.toNat / 2 ^ 16 % 2 ^ 12 ≠ 0) : RaisesError 2 (runWord w s) s :=
  runWord_raises_reservedField s (hop ▸ hf) (mt (reservedZero_iff .w w).1 hr)

/-- A word with the opcode of an R-format command and a 1 in bits 27 to 16 or 7 to 0 raises `Error(2)` (R41, R45). -/
theorem runWord_raises_reservedField_r {w : Word} {op : Nat} (s : State) (hf : opFormat op = some .r)
    (hop : w.toNat / 2 ^ 28 = op) (hr : w.toNat / 2 ^ 16 % 2 ^ 12 ≠ 0 ∨ w.toNat % 2 ^ 8 ≠ 0) :
    RaisesError 2 (runWord w s) s :=
  runWord_raises_reservedField s (hop ▸ hf) (mt (reservedZero_iff .r w).1 (not_and_or.2 hr))

/-- `2L` fits the 8-bit index (R7). -/
theorem psSize_lt {s : State} (h : s.cfg.wellFormed = true) : psSize s < 256 := by
  have := tsSize_lt h
  simp only [tsSize, psSize] at *
  omega

/-! ## The host's lists of reads -/

/-- The host's record of the elements of `l`, read in order on the result port (R103). -/
def resultReadings (l : List Byte) : List Reading := l.map fun v => .result (BitVec.ofNat 32 v.toNat)

theorem resultReadings_drop {l : List Byte} {k : Nat} (h : k < l.length) :
    resultReadings (l.drop k) = .result (elementWord l[k]) :: resultReadings (l.drop (k + 1)) := by
  rw [List.drop_eq_getElem_cons h, resultReadings, List.map_cons, BitVec.ofNat_toNat]
  rfl

/-- In `s`, and however `RES` and the host's side change from there, the command `read idx` puts element `idx` of `l` in
`RES` and does nothing else. -/
def ReadsArray (read : Byte → Instr) (l : List Byte) (s : State) : Prop :=
  ∀ (u : State) (idx v : Byte), u.cfg = s.cfg → u.ts = s.ts → u.ps = s.ps → l[idx.toNat]? = some v →
    exec (read idx) u = .next (writeRes (elementWord v) u)

theorem readsArray_tsRd {s : State} (hts : s.ts.length = tsSize s) : ReadsArray Instr.tsRd s.ts s := by
  intro u idx v hcfg huts _ hv
  have hlt : idx.toNat < s.ts.length := (List.getElem?_eq_some_iff.1 hv).1
  exact exec_tsRd_of_getElem? (by rwa [tsSize, hcfg, ← tsSize, ← hts]) (huts ▸ hv)

theorem readsArray_psRd {s : State} (hps : s.ps.length = psSize s) : ReadsArray Instr.psRd s.ps s := by
  intro u idx v hcfg _ hups hv
  have hlt : idx.toNat < s.ps.length := (List.getElem?_eq_some_iff.1 hv).1
  exact exec_psRd_of_getElem? (by rwa [psSize, hcfg, ← psSize, ← hps]) (hups ▸ hv)

/-- With the word of a read next and a read of the result port after it, two steps record what the command put in `RES`
(R16, R103). -/
theorem stepMany_read_readResult {s : State} {i : Instr} {v : Word} {rest : List HostAction} (n : Nat)
    (hw : s.wasReset = true) (hs : s.script = present i :: .readResult :: rest)
    (hexec : exec i (countCommand (dropAction (.readResult :: rest) s)) =
      .next (writeRes v (countCommand (dropAction (.readResult :: rest) s)))) :
    stepMany (n + 2) s = stepMany n
      { s with res := v, reads := s.reads ++ [.result v], script := rest, pos := s.pos + 1 } := by
  rw [stepMany_succ ((step_of_present hw hs).trans hexec), stepMany_succ (step_of_readResult (by exact hw) rfl)]
  rfl

/-- The reads of `l` from index `k` to its end record its elements in index order and change `RES` alone of the block; the
indices fit the IDX field (R7, R49). -/
theorem stepMany_readElements {read : Byte → Instr} {l : List Byte} {s : State} {k n : Nat} {rest : List HostAction}
    (hread : ReadsArray read l s) (hsize : l.length ≤ 256) (hw : s.wasReset = true) (hk : k + n = l.length)
    (hs : s.script = readElements read k n ++ rest) :
    ∃ r, stepMany (readElements read k n).length s = .next { s with
      res := r
      reads := s.reads ++ resultReadings (l.drop k)
      script := rest
      pos := s.pos + n } := by
  induction n generalizing s k with
  | zero =>
    obtain rfl : k = l.length := hk
    obtain rfl : s.script = rest := hs
    exact ⟨s.res, by simp [readElements, stepMany, resultReadings]⟩
  | succ n ih =>
    have hlt : k < l.length := by omega
    have hidx : (BitVec.ofNat 8 k).toNat = k := Nat.mod_eq_of_lt (by omega)
    have hv : l[(BitVec.ofNat 8 k).toNat]? = some l[k] := by rw [hidx, List.getElem?_eq_getElem hlt]
    obtain ⟨r, hrun⟩ := ih (s := { s with
      res := elementWord l[k]
      reads := s.reads ++ [.result (elementWord l[k])]
      script := readElements read (k + 1) n ++ rest
      pos := s.pos + 1 }) (k := k + 1) hread hw (by omega) rfl
    refine ⟨r, (stepMany_read_readResult _ hw hs (hread _ _ _ rfl rfl rfl hv)).trans (hrun.trans ?_)⟩
    simp [resultReadings_drop hlt, Nat.add_assoc, Nat.add_comm 1]

/-- AS_TRYTE_ARRAY from a legal state after a reset records `TS` in index order and changes `RES` alone (R77). -/
theorem stepMany_asTryteArray {s : State} {acts rest : List HostAction} (hlegal : Legal s) (hw : s.wasReset = true)
    (hacts : expandPseudo s.cfg.groups .asTryteArray = some acts) (hs : s.script = acts ++ rest) :
    ∃ r, stepMany acts.length s = .next { s with
      res := r
      reads := s.reads ++ resultReadings s.ts
      script := rest
      pos := s.pos + 3 * s.cfg.groups } := by
  obtain ⟨hcfg, hts, -⟩ := hlegal
  obtain rfl := Option.some.inj hacts
  exact stepMany_readElements (readsArray_tsRd hts) (hts ▸ (tsSize_lt hcfg).le) hw (by rw [hts, Nat.zero_add, tsSize]) hs

/-- READ_PACKED from a legal state after a reset records `PS` in index order and changes `RES` alone (R78). -/
theorem stepMany_readPacked {s : State} {acts rest : List HostAction} (hlegal : Legal s) (hw : s.wasReset = true)
    (hacts : expandPseudo s.cfg.groups .readPacked = some acts) (hs : s.script = acts ++ rest) :
    ∃ r, stepMany acts.length s = .next { s with
      res := r
      reads := s.reads ++ resultReadings s.ps
      script := rest
      pos := s.pos + 2 * s.cfg.groups } := by
  obtain ⟨hcfg, -, hps, -⟩ := hlegal
  obtain rfl := Option.some.inj hacts
  exact stepMany_readElements (readsArray_psRd hps) (hps ▸ (psSize_lt hcfg).le) hw (by rw [hps, Nat.zero_add, psSize]) hs

/-! ## The host's LOAD_PACKED -/

/-- The writes of `l` from index `k` to the end of `PS` keep what stands below `k` and put `l` above it (R49, R74). -/
theorem stepMany_writeElements_psWr {s : State} {k : Nat} {l : List Byte} {rest : List HostAction}
    (hw : s.wasReset = true) (hsize : psSize s < 256) (hps : s.ps.length = psSize s) (hk : k + l.length = psSize s)
    (hs : s.script = writeElements Instr.psWr k l ++ rest) :
    stepMany l.length s = .next { s with ps := s.ps.take k ++ l, script := rest, pos := s.pos + l.length } := by
  induction l generalizing s k with
  | nil =>
    obtain rfl : k = s.ps.length := hk.trans hps.symm
    obtain rfl : s.script = rest := hs
    simp [stepMany]
  | cons v vs ih =>
    rw [List.length_cons] at hk ⊢
    have hlt : k < psSize s := by omega
    have hidx : (BitVec.ofNat 8 k).toNat = k := Nat.mod_eq_of_lt (by omega)
    have hstep := (step_of_present hw hs).trans (exec_psWr_of_lt v (by rw [hidx]; exact hlt))
    rw [hidx] at hstep
    rw [stepMany_succ hstep]
    refine (ih (s := writePs k v (countCommand (dropAction (writeElements Instr.psWr (k + 1) vs ++ rest) s)))
      hw hsize (List.length_set.trans hps) ((Nat.succ_add_eq_add_succ k _).trans hk) rfl).trans ?_
    simp [take_succ_set_self (hps ▸ hlt), Nat.add_assoc, Nat.add_comm 1]

/-- LOAD_PACKED from a legal state after a reset leaves `PS` the bytes and the rest of the block as it was (R78). -/
theorem stepMany_loadPacked {s : State} {bytes : List Byte} {acts rest : List HostAction} (hlegal : Legal s)
    (hw : s.wasReset = true) (hacts : expandPseudo s.cfg.groups (.loadPacked bytes) = some acts)
    (hs : s.script = acts ++ rest) :
    bytes.length = 2 * s.cfg.groups ∧
      stepMany acts.length s = .next { s with ps := bytes, script := rest, pos := s.pos + 2 * s.cfg.groups } := by
  obtain ⟨hcfg, -, hps, -⟩ := hlegal
  obtain ⟨hlen, hacts⟩ := Option.ite_none_right_eq_some.1 hacts
  obtain rfl := Option.some.inj hacts
  refine ⟨hlen, ?_⟩
  rw [writeElements_length, stepMany_writeElements_psWr hw (psSize_lt hcfg) hps ((Nat.zero_add _).trans hlen) hs, hlen]
  rfl

end Sys2Proof.Machine
end

section
/-! PROOF. Raw array and packed interchange: the statements of 43_element_access.md (R71 to R78). -/

namespace Sys2Proof.Machine

/-- Settles O25, by the two sides of the index check. -/
theorem tryteWriteCommand : Obligations.TryteWriteCommand := by
  refine ⟨fun s idx val ⟨_, hts, _⟩ hlt => ?_, fun s idx val h => raisesError_three_of_exec (exec_tsWr_of_le val h),
    fun w idx val h => decode_of_toNat_eq (h.trans (encode_toNat (.tsWr idx val)).symm),
    fun w s => runWord_raises_reservedField_w s rfl⟩
  exact ⟨_, exec_tsWr_of_lt val hlt, rfl, List.length_set, List.getElem?_set_self (hts ▸ hlt),
    fun k hk => List.getElem?_set_ne hk.symm⟩

/-- Settles O26, by the two sides of the index check; a byte reads back exactly, whatever its value. -/
theorem tryteReadCommand : Obligations.TryteReadCommand := by
  refine ⟨fun s idx ⟨_, hts, _⟩ hlt => ?_, fun s idx h => raisesError_three_of_exec (exec_tsRd_of_le h),
    fun w idx h => decode_of_toNat_eq (h.trans (encode_toNat (.tsRd idx)).symm),
    fun w s => runWord_raises_reservedField_r s rfl⟩
  have hv := getElem?_ts_of_lt (hts ▸ hlt : idx.toNat < s.ts.length)
  exact ⟨_, _, exec_tsRd_of_getElem? hlt hv, rfl, hv, elementWord_toNat _⟩

/-- Settles O27, by the two sides of the index check. -/
theorem packedWriteCommand : Obligations.PackedWriteCommand := by
  refine ⟨fun s idx val ⟨_, _, hps, _⟩ hlt => ?_, fun s idx val h => raisesError_three_of_exec (exec_psWr_of_le val h),
    fun w idx val h => decode_of_toNat_eq (h.trans (encode_toNat (.psWr idx val)).symm),
    fun w s => runWord_raises_reservedField_w s rfl⟩
  exact ⟨_, exec_psWr_of_lt val hlt, rfl, List.length_set, List.getElem?_set_self (hps ▸ hlt),
    fun j hj => List.getElem?_set_ne hj.symm⟩

/-- Settles O28, by the two sides of the index check; a byte reads back exactly, whatever its value. -/
theorem packedReadCommand : Obligations.PackedReadCommand := by
  refine ⟨fun s idx ⟨_, _, hps, _⟩ hlt => ?_, fun s idx h => raisesError_three_of_exec (exec_psRd_of_le h),
    fun w idx h => decode_of_toNat_eq (h.trans (encode_toNat (.psRd idx)).symm),
    fun w s => runWord_raises_reservedField_r s rfl⟩
  have hv := getElem?_ps_of_lt (hps ▸ hlt : idx.toNat < s.ps.length)
  exact ⟨_, _, exec_psRd_of_getElem? hlt hv, rfl, hv, elementWord_toNat _⟩

/-- Settles O29, by FROM_TRYTE_ARRAY as a run. -/
theorem fromTryteArrayStoresTheArray : Obligations.FromTryteArrayStoresTheArray :=
  fun _ _ _ _ hlegal hw hacts hs => ⟨_, stepMany_fromTryteArray hlegal hw hacts hs, rfl⟩

/-- Settles O30: the run of reads leaves a legal state after a reset, from which the array is written back. -/
theorem asTryteArrayReadsTheArray : Obligations.AsTryteArrayReadsTheArray := by
  intro s acts rest hlegal hw hacts hs
  obtain ⟨r, hrun⟩ := stepMany_asTryteArray hlegal hw hacts hs
  refine ⟨_, hrun, rfl, rfl, fun writes after hwrites hrest => ?_⟩
  exact ⟨_, stepMany_fromTryteArray (by exact hlegal) hw hwrites hrest, rfl⟩

/-- Settles O31: the reads record PS as it stands, so after LOAD_PACKED the bytes loaded; SEQ_ENC of an in-range TS writes
the nominal pairs of `enc`. -/
theorem packedInterchange : Obligations.PackedInterchange := by
  refine ⟨?_, ?_, ?_⟩
  · intro s read rest hlegal hw hread hs
    obtain ⟨r, hrun⟩ := stepMany_readPacked hlegal hw hread hs
    exact ⟨_, hrun, rfl, rfl⟩
  · intro s bytes load read rest hlegal hw hload hread hs
    rw [List.append_assoc] at hs
    obtain ⟨hlen, hloaded⟩ := stepMany_loadPacked hlegal hw hload hs
    obtain ⟨hcfg, hts, -, hrecord⟩ := hlegal
    obtain ⟨r, hrun⟩ := stepMany_readPacked (s := { s with
      ps := bytes, script := read ++ rest, pos := s.pos + 2 * s.cfg.groups }) ⟨hcfg, hts, hlen, hrecord⟩ hw hread rfl
    have hpos : s.pos + 2 * s.cfg.groups + 2 * s.cfg.groups = s.pos + 4 * s.cfg.groups := by omega
    rw [stepMany_add _ hloaded, hrun]
    exact ⟨_, rfl, by simp only [hpos], rfl⟩
  · intro s _ hrange
    refine ⟨_, exec_seqEnc s, fun i hi => ?_⟩
    obtain ⟨h0, h1⟩ := flattenPairs_getElem? (encGroup s) hi
    rw [readPs_eq_of_getElem? (by exact h0), readPs_eq_of_getElem? (by exact h1)]
    exact enc_nominal _ _ ⟨readTs_le hrange _, readTs_le hrange _, readTs_le hrange _⟩

/-- Settles O9, by the outer side of the index checks. -/
theorem indexOutOfRangeRaisesErrorThree : Obligations.IndexOutOfRangeRaisesErrorThree := by
  intro s idx val
  constructor <;> intro h
  · exact ⟨raisesError_three_of_exec (exec_tsWr_of_le val h), raisesError_three_of_exec (exec_tsRd_of_le h)⟩
  · exact ⟨raisesError_three_of_exec (exec_psWr_of_le val h), raisesError_three_of_exec (exec_psRd_of_le h)⟩

end Sys2Proof.Machine
end

section
/-! SUPPORT. RAND as rules: what it does, which values it draws, and their range. -/

namespace Sys2Proof.Machine

theorem exec_rand (s : State) : exec .rand s = .next (takeEntropy (tsSize s) (fillTs (entropyFill s) s)) := rfl

/-- The values lined up are taken before any other (R79). -/
theorem entropyAt_of_lt {s : State} {k : Nat} (h : k < s.entropy.length) : entropyAt k s = s.entropy[k] := by
  rw [entropyAt, List.getElem?_eq_getElem h]

theorem entropyFill_getElem {s : State} {k : Nat} (h : k < (entropyFill s).length) :
    (entropyFill s)[k] = drawByte (entropyAt k s) := by
  simp only [entropyFill, List.getElem_map, List.getElem_range]

/-- Every draw is in range, lined up or free (R79). -/
theorem entropyFill_le {s : State} : ∀ v ∈ entropyFill s, v.toNat ≤ 26 := by
  refine List.forall_mem_map.2 fun k _ => ?_
  rw [drawByte_toNat]
  exact Nat.le_of_lt_succ (entropyAt k s).isLt

/-- The draws begin with the values lined up, in order, as many as both lists have (R80). -/
theorem entropyFill_take_entropy (s : State) :
    ((entropyFill s).map BitVec.toNat).take s.entropy.length = (s.entropy.map Fin.val).take (tsSize s) := by
  refine List.ext_getElem (by simp [Nat.min_comm]) fun k _ hk => ?_
  have hlt : k < s.entropy.length := by
    rw [List.length_take, List.length_map] at hk
    exact (Nat.lt_min.1 hk).2
  simp only [List.getElem_take, List.getElem_map, entropyFill_getElem, drawByte_toNat, entropyAt_of_lt hlt]

end Sys2Proof.Machine
end

section
/-! PROOF. Random generation: the statements of 44_random.md (R79 to R81). -/

namespace Sys2Proof.Machine

/-- Settles O32, by the draws' range and the values lined up; any other word of its opcode has a reserved bit set. -/
theorem randomFillCommand : Obligations.RandomFillCommand :=
  ⟨fun s => ⟨_, exec_rand s, rfl, entropyFill_length s, entropyFill_le, entropyFill_take_entropy s⟩,
    decode_of_toNat_eq rfl, fun _ s => runWord_raises_reservedField_n s rfl⟩

/-- Settles O33: RAND fills TS with in-range trytes, which survive encoding and decoding in either mode. -/
theorem randomSequenceRoundTrip : Obligations.RandomSequenceRoundTrip :=
  fun s _ => ⟨_, _, _, exec_rand s, exec_seqEnc _, exec_seqDec _, entropyFill_le,
    flattenTriples_decGroup_encGroup (entropyFill_length s) entropyFill_le⟩

end Sys2Proof.Machine
end

section
/-! SUPPORT. Which of the three errors of R83 a word takes: the opcodes that are none of the map's, the words no row selects, and
the commands whose index does not fit their array, each said once. -/

namespace Sys2Proof

/-! ## The errors of decoding -/

/-- The opcodes that are none of the map's (R43, R44). -/
theorem opFormat_eq_none_iff (op : Nat) : opFormat op = none ↔ op = 0 ∨ 12 ≤ op := by
  obtain h | h := Nat.lt_or_ge op 12
  · revert op
    decide
  · obtain ⟨k, rfl⟩ := Nat.exists_eq_add_of_le' h
    exact iff_of_true rfl (.inr h)

theorem decode_eq_illegalOpcode_iff (w : Word) :
    decode w = .illegalOpcode ↔ w.toNat / 2 ^ 28 = 0 ∨ 12 ≤ w.toNat / 2 ^ 28 := by
  rw [← opFormat_eq_none_iff]
  refine ⟨fun h => ?_, decode_of_opFormat_none⟩
  cases hf : opFormat (w.toNat / 2 ^ 28) with
  | none => rfl
  | some f =>
    obtain ⟨i, -, -, hd⟩ := decode_of_opFormat hf
    rw [h] at hd
    split at hd <;> cases hd

/-- Some row of the opcode map selects a word exactly when the word spells a command (R43, R46). -/
theorem exists_row_matches_iff (w : Word) :
    (∃ row ∈ opcodeMap, w &&& row.mask = row.matchVal) ↔ ∃ i, decode w = .command i := by
  constructor
  · rintro ⟨row, hrow, hmatch⟩
    obtain ⟨i, hd, -⟩ := (matchAndMaskSelectTheCommand row hrow w).1 hmatch
    exact ⟨i, hd⟩
  · rintro ⟨i, hd⟩
    obtain ⟨row, hrow, -, hmatch⟩ := encode_matches_row i
    exact ⟨row, hrow, encodeOfDecode w i hd ▸ hmatch⟩

end Sys2Proof

namespace Sys2Proof.Machine

/-! ## The error of execution -/

/-- The command is an element command and its index does not fit its array (R71). -/
def IndexOutOfRange (s : State) : Instr → Prop
  | .tsWr idx _ | .tsRd idx => tsSize s ≤ idx.toNat
  | .psWr idx _ | .psRd idx => psSize s ≤ idx.toNat
  | .enc3 _ _ _ | .dec3 _ _ | .seqEnc | .seqDec | .hrStart | .hrChar _ | .rand => False

/-- The same, read off the command's word: opcodes 5 and 6 index `TS`, 7 and 8 index `PS`, by bits 15 to 8 (R42, R43). -/
theorem indexOutOfRange_iff (s : State) (i : Instr) :
    IndexOutOfRange s i ↔
      ((opcodeOf i = 5 ∨ opcodeOf i = 6) ∧ 3 * s.cfg.groups ≤ (encode i).toNat / 2 ^ 8 % 2 ^ 8) ∨
        ((opcodeOf i = 7 ∨ opcodeOf i = 8) ∧ 2 * s.cfg.groups ≤ (encode i).toNat / 2 ^ 8 % 2 ^ 8) := by
  rw [encode_toNat]
  cases i with
  | tsWr _ _ | tsRd _ | psWr _ _ | psRd _ =>
    simp only [IndexOutOfRange, opcodeOf, tsSize, psSize, Nat.reduceEqDiff, or_true, or_self, true_and,
      false_and, or_false, false_or]
    omega
  | enc3 _ _ _ | dec3 _ _ | seqEnc | seqDec | hrStart | hrChar _ | rand => simp [IndexOutOfRange, opcodeOf]

theorem exec_of_indexOutOfRange {i : Instr} {s : State} (h : IndexOutOfRange s i) :
    exec i s = .next (raiseError .indexRange s) := by
  cases i with
  | tsWr _ val => exact exec_tsWr_of_le val h
  | tsRd _ => exact exec_tsRd_of_le h
  | psWr _ val => exact exec_psWr_of_le val h
  | psRd _ => exact exec_psRd_of_le h
  | enc3 _ _ _ | dec3 _ _ | seqEnc | seqDec | hrStart | hrChar _ | rand => exact h.elim

/-- With no index to check, or one that fits, a command completes and takes no error (R71). -/
theorem exec_keeps_error_record {i : Instr} {s : State} (h : ¬ IndexOutOfRange s i) :
    ∃ t, exec i s = .next t ∧ t.err = s.err ∧ t.ecode = s.ecode := by
  cases i with
  | tsWr _ _ | tsRd _ => exact ⟨_, congrArg Host.Outcome.next (ifTsIndex_inside (Nat.not_le.1 h)), rfl, rfl⟩
  | psWr _ _ | psRd _ => exact ⟨_, congrArg Host.Outcome.next (ifPsIndex_inside (Nat.not_le.1 h)), rfl, rfl⟩
  | hrChar ch =>
    refine ⟨_, rfl, ?_⟩
    obtain ht | ht := exec_hrChar_cases (s := s) (ch := ch) rfl <;> rw [ht] <;> exact ⟨rfl, rfl⟩
  | enc3 _ _ _ | dec3 _ _ | seqEnc | seqDec | hrStart | rand => exact ⟨_, rfl, rfl, rfl⟩

/-! ## The error record a word leaves -/

/-- The outcome `o` is a state whose record is that of code `n`: `ECODE` is `n`, and `ERR` is 1 exactly if `n` is an error's
(R20). -/
def LeavesCode (n : Nat) (o : Host.Outcome State Fault Refusal) : Prop :=
  ∃ t, o = .next t ∧ (t.err = true ↔ t.ecode ≠ 0#3) ∧ t.ecode.toNat = n

/-- The first error since reset leaves its number (R84). -/
theorem leavesCode_raiseError {s : State} (c : ErrorCode) (herr : s.err = false) :
    LeavesCode (errorNumber c).toNat (.next (raiseError c s)) := by
  have hcode : (raiseError c s).ecode = errorNumber c := by rw [raiseError_ecode, herr]; rfl
  have hne : errorNumber c ≠ 0#3 := by cases c <;> decide
  exact ⟨_, rfl, iff_of_true rfl (hcode ▸ hne), congrArg BitVec.toNat hcode⟩

/-- From a clear record a command leaves 3 if its index does not fit, and else the record clear (R71, R85). -/
theorem exec_leavesCode {i : Instr} {s : State} {n : Nat} (herr : s.err = false) (hcode : s.ecode = 0#3)
    (hout : IndexOutOfRange s i → n = 3) (hin : ¬ IndexOutOfRange s i → n = 0) : LeavesCode n (exec i s) := by
  by_cases h : IndexOutOfRange s i
  · rw [exec_of_indexOutOfRange h, hout h]
    exact leavesCode_raiseError .indexRange herr
  · obtain ⟨t, ht, hterr, htcode⟩ := exec_keeps_error_record h
    exact ⟨t, ht, by simp [hterr, herr, htcode, hcode], by rw [htcode, hcode, hin h]; rfl⟩

end Sys2Proof.Machine
end

section
/-! PROOF. Errors and the idle block: the statements of 60_exceptions.md (R83 to R85, R96). -/

namespace Sys2Proof.Machine

/-- Settles O8, by what the word decodes to: a word of no legal opcode takes 1, another that no row selects takes 2, and a
command takes 3 where its index does not fit. -/
theorem firstErrorInDecodeOrder : Obligations.FirstErrorInDecodeOrder := by
  intro w s herr hcode op idx
  have hop : decode w = .illegalOpcode ↔ op = 0 ∨ 12 ≤ op := decode_eq_illegalOpcode_iff w
  have hrow := exists_row_matches_iff w
  cases hd : decode w with
  | illegalOpcode =>
    rw [runWord_of_illegalOpcode s hd, if_pos (hop.1 hd)]
    exact leavesCode_raiseError .illegalOpcode herr
  | reservedField =>
    rw [runWord_of_reservedField s hd, if_neg (by simp [← hop, hd]), if_pos (by simp [hrow, hd])]
    exact leavesCode_raiseError .reservedField herr
  | command i =>
    have hidx := indexOutOfRange_iff s i
    rw [← encode_opcode, encodeOfDecode w i hd] at hidx
    rw [runWord_of_command s hd, if_neg (by simp [← hop, hd]), if_neg (by simp [hrow, hd])]
    exact exec_leavesCode herr hcode (fun h => if_pos (hidx.1 h)) fun h => if_neg (mt hidx.2 h)

/-- Settles O48, `step` on an empty list of actions. -/
theorem idleHoldsTheState : Obligations.IdleHoldsTheState := by
  intro s hs
  simp only [step, hostStep, hs]

end Sys2Proof.Machine
end

section
/-! SUPPORT. Completion: a command and a word on the command port always answer a next state, with the host's side as it was; a
step does too, unless the host asks for something before the first reset. -/

namespace Sys2Proof.Machine

/-! ## A word on the command port -/

theorem exec_completes (i : Instr) (s : State) : ∃ t, exec i s = .next t := by
  cases i <;> exact ⟨_, rfl⟩

/-- A word that spells no command completes by taking its error (R84, R100). -/
theorem runWord_completes (w : Word) (s : State) : ∃ t, runWord w s = .next t := by
  cases hd : decode w with
  | command i => exact runWord_of_command s hd ▸ exec_completes i s
  | illegalOpcode => exact ⟨_, runWord_of_illegalOpcode s hd⟩
  | reservedField => exact ⟨_, runWord_of_reservedField s hd⟩

/-- RAND moves the entropy input only; any other command commutes with every choice of surroundings, so with its own, and
keeps them. -/
theorem exec_keeps_host {i : Instr} {s t : State} (h : exec i s = .next t) :
    t.script = s.script ∧ t.reads = s.reads ∧ t.pos = s.pos := by
  by_cases hrand : i = .rand
  · subst hrand
    obtain rfl := eq_of_exec (exec_rand s) h
    exact ⟨rfl, rfl, rfl⟩
  · have ht : t = withSurroundings s.entropy s.draws s.script s.reads s.pos t :=
      eq_of_exec h (exec_withSurroundings s.entropy s.draws s.script s.reads s.pos hrand h)
    rw [ht]
    exact ⟨rfl, rfl, rfl⟩

/-- A word only runs on the block: the host's list, readings and position are the step's to move (R82, R100). -/
theorem runWord_keeps_host {w : Word} {s t : State} (h : runWord w s = .next t) :
    t.script = s.script ∧ t.reads = s.reads ∧ t.pos = s.pos := by
  cases hd : decode w with
  | command i => exact exec_keeps_host ((runWord_of_command s hd).symm.trans h)
  | illegalOpcode =>
    obtain rfl := Host.Outcome.next.inj ((runWord_of_illegalOpcode s hd).symm.trans h)
    exact ⟨rfl, rfl, rfl⟩
  | reservedField =>
    obtain rfl := Host.Outcome.next.inj ((runWord_of_reservedField s hd).symm.trans h)
    exact ⟨rfl, rfl, rfl⟩

/-! ## A step -/

/-- With a reset next, a step is the reset in the state past it, whether or not one happened before (R97). -/
theorem step_of_reset {s : State} {rest : List HostAction} (hs : s.script = .reset :: rest) :
    step s = .next (applyReset (dropAction rest s)) := by
  simp only [step, hostStep, hs, hostAct]

/-- The host presents a command or reads a port before the first reset (R98). -/
def ActsBeforeFirstReset (s : State) : Prop :=
  s.wasReset = false ∧ s.script ≠ [] ∧ s.script.head? ≠ some .reset

theorem step_of_actsBeforeFirstReset {s : State} (h : ActsBeforeFirstReset s) : step s = .fault .beforeFirstReset := by
  obtain ⟨hw, hne, hhead⟩ := h
  obtain ⟨a, rest, hs⟩ := List.exists_cons_of_ne_nil hne
  simp only [step, hostStep, hs]
  cases a with
  | reset => exact absurd (by rw [hs]; rfl) hhead
  | command _ | readResult | readStatus => exact afterReset_of_not_reset hw

theorem step_completes {s : State} (h : ¬ ActsBeforeFirstReset s) : ∃ t, step s = .next t := by
  cases hs : s.script with
  | nil => exact ⟨s, idleHoldsTheState s hs⟩
  | cons a rest =>
    have hw (ha : a ≠ .reset) : s.wasReset = true :=
      of_not_not fun hw => h ⟨by simpa using hw, by simp [hs], by simpa [hs] using ha⟩
    cases a with
    | reset => exact ⟨_, step_of_reset hs⟩
    | readResult => exact ⟨_, step_of_readResult (hw nofun) hs⟩
    | readStatus => exact ⟨_, step_of_readStatus (hw nofun) hs⟩
    | command w => exact step_of_command (hw nofun) hs ▸ runWord_completes w _

end Sys2Proof.Machine
end

section
/-! PROOF. Reset and completion: the statements of 70_reset_and_hazards.md (R97, R98, R100). -/

namespace Sys2Proof.Machine

/-- Settles O43: the word completes, and what it answers has the parameters, the reset record and the host's side of `s`. -/
theorem everyWordCompletes : Obligations.EveryWordCompletes := by
  intro w s
  obtain ⟨t, ht⟩ := runWord_completes w s
  obtain ⟨hcfg, hreset⟩ := runWord_keeps_cfg_and_wasReset ht
  obtain ⟨hscript, hreads, hpos⟩ := runWord_keeps_host ht
  exact ⟨t, ht, hcfg, hscript, hreads, hpos, hreset⟩

/-- Settles O49: before the first reset a command or a port read faults, and every other step completes. -/
theorem stopsOnlyBeforeTheFirstReset : Obligations.StopsOnlyBeforeTheFirstReset := by
  intro s
  by_cases h : ActsBeforeFirstReset s
  · rw [step_of_actsBeforeFirstReset h]
    exact ⟨iff_of_true rfl h, nofun⟩
  · obtain ⟨t, ht⟩ := step_completes h
    rw [ht]
    exact ⟨iff_of_false nofun h, nofun⟩

/-- Settles O37, by what a step does with a reset next. -/
theorem resetInputClearsEveryRegister : Obligations.ResetInputClearsEveryRegister :=
  fun _ _ hs => step_of_reset hs

end Sys2Proof.Machine
end
